-- ==== Sys2Proof/Word.lean ====
section
/-! DEFINITION. The word, byte and register-number types. Widths are those of spec/00_scope.md R6. -/

namespace Sys2Proof

/-- A 16-bit value: register contents, memory word, address, instruction word (R6, R9). -/
abbrev Word := BitVec 16

/-- Half a word, the cell of the host's memory lists. No instruction can name one (R60). -/
abbrev Byte := BitVec 8

/-- The number i of a general register Ri, a 3-bit field of an instruction (R20). -/
abbrev Reg := BitVec 3

end Sys2Proof
end

