-- ==== Sys2Proof/Config.lean ====
section
/-! DEFINITION. The parameters the spec leaves open (spec/00_scope.md R7) and the model's free values.
A parameter that is plain data is a field of `Params`, held in State and never written, so that a statement about every
state holds for every value of it. A parameter that is a function, and every value the spec does not state, is an opaque
constant: nothing in Lean can evaluate it, so a proof holds whatever it is. -/

namespace Sys2Proof

/-- RESERVED_POLICY (R7, R96, D2): what a word that no row of the opcode table accepts does. -/
inductive ReservedPolicy where
  /-- The model gives the word no meaning: the default. -/
  | refuse
  /-- The word is decoded by opcode and selector bits only, the other literal bits ignored. -/
  | ignoreBits
  deriving DecidableEq, Repr

/-- The parameters of R7 that are plain data, fixed for a run. -/
structure Params where
  /-- RESET_PC as a word index: RESET_PC is even (R37, D21), so its bit 0 is not stored. -/
  resetWord : BitVec 15
  /-- INT_VECTOR (R206, D19): the address an accepted interrupt enters at. -/
  intVector : Word
  /-- INT_NESTING (R204, D18): whether an interrupt is accepted while IL = 1. -/
  intNesting : Bool
  /-- RESERVED_POLICY (R96, D2). -/
  reservedPolicy : ReservedPolicy
  deriving DecidableEq, Repr

/-- RESET_PC, a byte number with bit 0 clear (R37). -/
def Params.resetPc (p : Params) : Word := p.resetWord ++ 0#1

/-- The operations whose carry flag the spec leaves to CARRY_OTHER (R28, D6). -/
inductive CarryOp where
  | and | orr | xor | shl | shr | lbi
  deriving DecidableEq, Repr

/-- CARRY_OTHER (R7, R28): the c flag of AND, ORR, XOR, SHL, SHR, LBI, from the operation, its two operands and the
old c. FREE VALUE, assumption 5. -/
opaque Config.carryOther : CarryOp → Word → Word → Bool → Bool

/-- SHIFT_AMOUNT (R7, R125) for a count register of 16 or more. FREE VALUE, assumption 6. -/
opaque Config.shiftAmountBeyond : Word → Nat

/-- INT_VECTOR as the machine has it after reset: OPEN, no default (R206, D19). FREE VALUE, assumption 15. -/
opaque Config.intVector : Word

/-- The environment's bit IRQ at an instruction boundary (R203, U14: any value), by the number of the environment and of
the boundary. FREE VALUE, assumption 14. -/
opaque Config.irqBit : Nat → Nat → Bool

/-- The byte of free data memory at an address that nothing has written since launch (R43, U10), in the given draw.
FREE VALUE, assumption 20. -/
opaque Config.launchByte : Nat → Nat → Byte

/-- The byte of PROGRAM (R7, R44) at an address the loaded cells do not list, in the given draw.
FREE VALUE, assumption 21. -/
opaque Config.programByte : Nat → Nat → Byte

/-- What a peripheral device in a given state answers to a read of an address (R58). FREE VALUE, assumption 13. -/
opaque Config.periphReadValue : Nat → Word → Word

/-- The device's state after a read of an address (R58: "side effects on read"). FREE VALUE, assumption 13. -/
opaque Config.periphAfterRead : Nat → Word → Nat

/-- The device's state after a write of a word to an address (R58). FREE VALUE, assumption 13. -/
opaque Config.periphAfterWrite : Nat → Word → Word → Nat

/-- The device's own change of state from one step to the next (R217). FREE VALUE, assumption 13. -/
opaque Config.periphTick : Nat → Nat

/-- The parameters after reset: the defaults of R7, and the opaque INT_VECTOR, which has none.
DESIGN CHOICE, assumptions 11, 15, 18 and 23. -/
def Config.params : Params where
  resetWord := 0#15
  intVector := Config.intVector
  intNesting := false
  reservedPolicy := .refuse

end Sys2Proof
end

