-- ==== Sys2Proof/Syntax.lean ====
section
/-! DEFINITION. The instructions: one constructor for each of the 24 rows of spec/opcode_table.json, in opcode order.
Fields carry the spec's names and widths (R11, R81): an operand is exactly its encoding field. -/

namespace Sys2Proof

/-- An instruction of the RISCII opcode table (R92). -/
inductive Instr where
  /-- NOP (R180). -/
  | nop
  /-- SWP (R170). -/
  | swp (dst sr1 : Reg) (ofst6 : BitVec 6)
  /-- BRC with its four select bits (R160). -/
  | brc (bn bz bp bc : Bool) (imm8 : BitVec 8)
  /-- HLT (R181). -/
  | hlt
  /-- STR (R151). -/
  | str (src sr1 : Reg) (ofst6 : BitVec 6)
  /-- LDR (R150). -/
  | ldr (dst sr1 : Reg) (ofst6 : BitVec 6)
  /-- JPR with r = 0, jump (R162). -/
  | jpr (sr1 : Reg) (imm5 : BitVec 5)
  /-- JPR with r = 1, return from interrupt; both fields are ignored (R163). -/
  | jprReturn (sr1 : Reg) (imm5 : BitVec 5)
  /-- JLR (R165). -/
  | jlr (dst sr1 : Reg) (imm5 : BitVec 5)
  /-- ADD, register form (R130). -/
  | addReg (dst sr1 sr2 : Reg)
  /-- ADD, immediate form (R131). -/
  | addImm (dst sr1 : Reg) (imm5 : BitVec 5)
  /-- SUB, register form (R132). -/
  | subReg (dst sr1 sr2 : Reg)
  /-- SUB, immediate form (R133). -/
  | subImm (dst sr1 : Reg) (imm5 : BitVec 5)
  /-- LBI; `s` selects the sign-extended load (R140). -/
  | lbi (dst : Reg) (s : Bool) (imm8 : BitVec 8)
  /-- XOR, register form (R114). -/
  | xorReg (dst sr1 sr2 : Reg)
  /-- XOR, immediate form (R115). -/
  | xorImm (dst sr1 : Reg) (imm5 : BitVec 5)
  /-- SHL, register form (R120). -/
  | shlReg (dst sr1 sr2 : Reg)
  /-- SHL, immediate form (R121). -/
  | shlImm (dst sr1 : Reg) (imm4 : BitVec 4)
  /-- SHR, register form; `a` selects the arithmetic shift (R122). -/
  | shrReg (dst sr1 : Reg) (a : Bool) (sr2 : Reg)
  /-- SHR, immediate form; `a` selects the arithmetic shift (R123). -/
  | shrImm (dst sr1 : Reg) (a : Bool) (imm4 : BitVec 4)
  /-- ORR, register form (R112). -/
  | orrReg (dst sr1 sr2 : Reg)
  /-- ORR, immediate form (R113). -/
  | orrImm (dst sr1 : Reg) (imm5 : BitVec 5)
  /-- AND, register form (R110). -/
  | andReg (dst sr1 sr2 : Reg)
  /-- AND, immediate form (R111). -/
  | andImm (dst sr1 : Reg) (imm5 : BitVec 5)
  deriving DecidableEq, Repr

end Sys2Proof
end

