-- ==== Sys2Proof/WellFormed.lean ====
section
/-! DEFINITION. Which words are instructions: the opcode map of spec/30_encoding.md R92 as mask and match.
Every term of `Instr` is well formed, since each operand has exactly its field's width; what can be ill formed is a
word, and `Word.wellFormed` is the check (R94, R95). -/

namespace Sys2Proof

/-- A row of the opcode map (R92): a word `w` is this row's instruction iff `w &&& mask = pattern`. -/
structure Row where
  mnemonic : String
  mask : Word
  pattern : Word
  deriving DecidableEq, Repr

/-- Whether the row accepts the word (R92). -/
def Row.accepts (r : Row) (w : Word) : Bool := w &&& r.mask == r.pattern

/-- The rows of opcodes 0 to 7 (R92). -/
def opcodeRowsLow : List Row :=
  [⟨"NOP", 0xFFFF#16, 0x0000#16⟩, ⟨"SWP", 0xF000#16, 0x1000#16⟩,
   ⟨"BRC", 0xF000#16, 0x2000#16⟩, ⟨"HLT", 0xFFFF#16, 0x3000#16⟩,
   ⟨"STR", 0xF000#16, 0x4000#16⟩, ⟨"LDR", 0xF000#16, 0x5000#16⟩,
   ⟨"JPR", 0xFE20#16, 0x6000#16⟩, ⟨"JPR", 0xFE20#16, 0x6020#16⟩,
   ⟨"JLR", 0xF020#16, 0x7000#16⟩]

/-- The rows of opcodes 8 to 15 (R92). -/
def opcodeRowsHigh : List Row :=
  [⟨"ADD", 0xF038#16, 0x8000#16⟩, ⟨"ADD", 0xF020#16, 0x8020#16⟩,
   ⟨"SUB", 0xF038#16, 0x9000#16⟩, ⟨"SUB", 0xF020#16, 0x9020#16⟩,
   ⟨"LBI", 0xF000#16, 0xA000#16⟩,
   ⟨"XOR", 0xF038#16, 0xB000#16⟩, ⟨"XOR", 0xF020#16, 0xB020#16⟩,
   ⟨"SHL", 0xF038#16, 0xC000#16⟩, ⟨"SHL", 0xF030#16, 0xC020#16⟩,
   ⟨"SHR", 0xF028#16, 0xD000#16⟩, ⟨"SHR", 0xF020#16, 0xD020#16⟩,
   ⟨"ORR", 0xF038#16, 0xE000#16⟩, ⟨"ORR", 0xF020#16, 0xE020#16⟩,
   ⟨"AND", 0xF038#16, 0xF000#16⟩, ⟨"AND", 0xF020#16, 0xF020#16⟩]

/-- The 24 rows of the opcode map (R92). -/
def opcodeRows : List Row := opcodeRowsLow ++ opcodeRowsHigh

/-- A word is well formed iff some row accepts it; the others are the reserved encodings (R94, R95). -/
def Word.wellFormed (w : Word) : Bool := opcodeRows.any (fun r => r.accepts w)

/-- The row of the opcode map an instruction belongs to (R92). -/
def Instr.row (i : Instr) : Row :=
  match i with
  | .nop => ⟨"NOP", 0xFFFF#16, 0x0000#16⟩
  | .swp _ _ _ => ⟨"SWP", 0xF000#16, 0x1000#16⟩
  | .brc _ _ _ _ _ => ⟨"BRC", 0xF000#16, 0x2000#16⟩
  | .hlt => ⟨"HLT", 0xFFFF#16, 0x3000#16⟩
  | .str _ _ _ => ⟨"STR", 0xF000#16, 0x4000#16⟩
  | .ldr _ _ _ => ⟨"LDR", 0xF000#16, 0x5000#16⟩
  | .jpr _ _ => ⟨"JPR", 0xFE20#16, 0x6000#16⟩
  | .jprReturn _ _ => ⟨"JPR", 0xFE20#16, 0x6020#16⟩
  | .jlr _ _ _ => ⟨"JLR", 0xF020#16, 0x7000#16⟩
  | .addReg _ _ _ => ⟨"ADD", 0xF038#16, 0x8000#16⟩
  | .addImm _ _ _ => ⟨"ADD", 0xF020#16, 0x8020#16⟩
  | .subReg _ _ _ => ⟨"SUB", 0xF038#16, 0x9000#16⟩
  | .subImm _ _ _ => ⟨"SUB", 0xF020#16, 0x9020#16⟩
  | .lbi _ _ _ => ⟨"LBI", 0xF000#16, 0xA000#16⟩
  | .xorReg _ _ _ => ⟨"XOR", 0xF038#16, 0xB000#16⟩
  | .xorImm _ _ _ => ⟨"XOR", 0xF020#16, 0xB020#16⟩
  | .shlReg _ _ _ => ⟨"SHL", 0xF038#16, 0xC000#16⟩
  | .shlImm _ _ _ => ⟨"SHL", 0xF030#16, 0xC020#16⟩
  | .shrReg _ _ _ _ => ⟨"SHR", 0xF028#16, 0xD000#16⟩
  | .shrImm _ _ _ _ => ⟨"SHR", 0xF020#16, 0xD020#16⟩
  | .orrReg _ _ _ => ⟨"ORR", 0xF038#16, 0xE000#16⟩
  | .orrImm _ _ _ => ⟨"ORR", 0xF020#16, 0xE020#16⟩
  | .andReg _ _ _ => ⟨"AND", 0xF038#16, 0xF000#16⟩
  | .andImm _ _ _ => ⟨"AND", 0xF020#16, 0xF020#16⟩

end Sys2Proof
end

