-- ==== Sys2Proof/Decode.lean ====
section
/-! DEFINITION. The decoder and the encoder (spec/30_encoding.md R80 to R97). Decoding is total on words (R94) and on
byte lists; a reserved word is rejected by the name of the literal bits it has wrong (R95). -/

namespace Sys2Proof

/-- The classes of reserved words, one for each row of the table of R95. -/
inductive Reserved where
  /-- Opcode 0000 with `inst[11:0]` not 0. -/
  | nopBits
  /-- Opcode 0011 with `inst[11:0]` not 0. -/
  | hltBits
  /-- Opcode 0110 with `inst[11:9]` not 000. -/
  | jprDst
  /-- Opcode 0111 with `inst[5]` = 1. -/
  | jlrSelector
  /-- ADD, SUB, XOR, ORR or AND with `inst[5]` = 0 and `inst[4:3]` not 00. -/
  | aluBits
  /-- SHL with `inst[5]` = 0 and `inst[4:3]` not 00, or with `inst[5:4]` = 11. -/
  | shlBits
  /-- SHR with `inst[5]` = 0 and `inst[3]` = 1. -/
  | shrBit3
  deriving DecidableEq, Repr

/-- Why bytes are no instruction. -/
inductive DecodeError where
  /-- Fewer than two bytes: no whole word (R80). -/
  | truncated
  /-- A reserved word (R95). -/
  | reserved (r : Reserved)
  deriving DecidableEq, Repr

/-- `inst[15:12]` (R80). -/
def opcodeField (w : Word) : BitVec 4 := w.extractLsb' 12 4

/-- dst, or src of STR: `inst[11:9]` (R81). -/
def dstField (w : Word) : Reg := w.extractLsb' 9 3

/-- `inst[8:6]` (R81). -/
def sr1Field (w : Word) : Reg := w.extractLsb' 6 3

/-- `inst[2:0]` (R81). -/
def sr2Field (w : Word) : Reg := w.extractLsb' 0 3

/-- `inst[3:0]` (R81). -/
def imm4Field (w : Word) : BitVec 4 := w.extractLsb' 0 4

/-- `inst[4:0]` (R81). -/
def imm5Field (w : Word) : BitVec 5 := w.extractLsb' 0 5

/-- `inst[5:0]` (R81). -/
def ofst6Field (w : Word) : BitVec 6 := w.extractLsb' 0 6

/-- `inst[7:0]` (R81). -/
def imm8Field (w : Word) : BitVec 8 := w.extractLsb' 0 8

/-- `inst[k]`, a single-letter flag or a selector bit (R81). -/
def bitField (w : Word) (k : Nat) : Bool := w.getLsbD k

/-- `inst[4:3]`, literal 00 in format RR (R82). -/
def rrLiteral (w : Word) : BitVec 2 := w.extractLsb' 3 2

/-- `inst[11:0]`, all literal 0 in format Z (R91). -/
def zLiteral (w : Word) : BitVec 12 := w.extractLsb' 0 12

/-- The instruction a word is by its opcode and selector bits alone, every other literal bit ignored: the
`ignore_bits` reading of R96, and the field extraction of R94 on the words a row accepts. -/
def decodeFields (w : Word) : Instr :=
  let dst := dstField w
  let sr1 := sr1Field w
  let sr2 := sr2Field w
  let imm5 := imm5Field w
  let sel := bitField w 5
  match (opcodeField w).toNat with
  | 0 => .nop
  | 1 => .swp dst sr1 (ofst6Field w)
  | 2 => .brc (bitField w 11) (bitField w 10) (bitField w 9) (bitField w 8) (imm8Field w)
  | 3 => .hlt
  | 4 => .str dst sr1 (ofst6Field w)
  | 5 => .ldr dst sr1 (ofst6Field w)
  | 6 => if sel then .jprReturn sr1 imm5 else .jpr sr1 imm5
  | 7 => .jlr dst sr1 imm5
  | 8 => if sel then .addImm dst sr1 imm5 else .addReg dst sr1 sr2
  | 9 => if sel then .subImm dst sr1 imm5 else .subReg dst sr1 sr2
  | 10 => .lbi dst (bitField w 8) (imm8Field w)
  | 11 => if sel then .xorImm dst sr1 imm5 else .xorReg dst sr1 sr2
  | 12 => if sel then .shlImm dst sr1 (imm4Field w) else .shlReg dst sr1 sr2
  | 13 => if sel then .shrImm dst sr1 (bitField w 4) (imm4Field w) else .shrReg dst sr1 (bitField w 4) sr2
  | 14 => if sel then .orrImm dst sr1 imm5 else .orrReg dst sr1 sr2
  | _ => if sel then .andImm dst sr1 imm5 else .andReg dst sr1 sr2

/-- Which class of reserved words the word is in, by the conditions of R95; `none` for a defined word. -/
def reservedClass (w : Word) : Option Reserved :=
  let sel := bitField w 5
  match (opcodeField w).toNat with
  | 0 => if zLiteral w = 0#12 then none else some .nopBits
  | 3 => if zLiteral w = 0#12 then none else some .hltBits
  | 6 => if dstField w = 0#3 then none else some .jprDst
  | 7 => if sel then some .jlrSelector else none
  | 12 =>
    if sel then (if bitField w 4 then some .shlBits else none)
    else if rrLiteral w = 0#2 then none else some .shlBits
  | 13 => if !sel && bitField w 3 then some .shrBit3 else none
  | 8 | 9 | 11 | 14 | 15 => if !sel && rrLiteral w != 0#2 then some .aluBits else none
  | _ => none

/-- The decoding procedure of R94: one of the rows, or reserved. -/
def decode (w : Word) : Except DecodeError Instr :=
  match reservedClass w with
  | some r => .error (.reserved r)
  | none => .ok (decodeFields w)

/-- Decoding under RESERVED_POLICY (R96): `ignoreBits` gives a reserved word the meaning its opcode and selector bits
select. -/
def decodeUnder (p : ReservedPolicy) (w : Word) : Except DecodeError Instr :=
  match p with
  | .refuse => decode w
  | .ignoreBits => .ok (decodeFields w)

/-- The two cells of a word, the low byte at the even address. DESIGN CHOICE, assumption 1: unobservable (R60). -/
def lowByte (w : Word) : Byte := w.extractLsb' 0 8

/-- The cell of a word at the odd address. -/
def highByte (w : Word) : Byte := w.extractLsb' 8 8

/-- The word two cells hold. -/
def joinBytes (lo hi : Byte) : Word := hi ++ lo

/-- The bytes of a word in address order. -/
def wordBytes (w : Word) : List Byte := [lowByte w, highByte w]

/-- Decoding the front of a list of bytes, with the bytes after it; every instruction is two bytes (R80). -/
def decodeBytes (bs : List Byte) : Except DecodeError (Instr × List Byte) :=
  match bs with
  | lo :: hi :: rest => (decode (joinBytes lo hi)).map (fun i => (i, rest))
  | _ => .error .truncated

/-- One bit as a field of a format row. -/
def flagBit (b : Bool) : BitVec 1 := if b then 1#1 else 0#1

/-- Format RR of R82: `[oooo] [DST] [SR1] [000] [SR2]`. -/
def formatRR (op : BitVec 4) (dst sr1 sr2 : Reg) : Word := op ++ dst ++ sr1 ++ 0b000#3 ++ sr2

/-- Format RI5 of R83: `[oooo] [DST] [SR1] [1] [5blmm]`. -/
def formatRI5 (op : BitVec 4) (dst sr1 : Reg) (imm5 : BitVec 5) : Word := op ++ dst ++ sr1 ++ 0b1#1 ++ imm5

/-- Format RI4 of R84: `[1100] [DST] [SR1] [10] [4blm]`. -/
def formatRI4 (op : BitVec 4) (dst sr1 : Reg) (imm4 : BitVec 4) : Word := op ++ dst ++ sr1 ++ 0b10#2 ++ imm4

/-- Format SRR of R85: `[1101] [DST] [SR1] [0] [a] [0] [SR2]`. -/
def formatSRR (op : BitVec 4) (dst sr1 : Reg) (a : Bool) (sr2 : Reg) : Word :=
  op ++ dst ++ sr1 ++ 0b0#1 ++ flagBit a ++ 0b0#1 ++ sr2

/-- Format SRI of R86: `[1101] [DST] [SR1] [1] [a] [4blm]`. -/
def formatSRI (op : BitVec 4) (dst sr1 : Reg) (a : Bool) (imm4 : BitVec 4) : Word :=
  op ++ dst ++ sr1 ++ 0b1#1 ++ flagBit a ++ imm4

/-- Format LI of R87: `[1010] [DST] [s] [8blmmVal]`. -/
def formatLI (op : BitVec 4) (dst : Reg) (s : Bool) (imm8 : BitVec 8) : Word := op ++ dst ++ flagBit s ++ imm8

/-- Format M of R88: `[oooo] [DST] [SR1] [6bOfst]`, SRC in DST's place for STR. -/
def formatM (op : BitVec 4) (dst sr1 : Reg) (ofst6 : BitVec 6) : Word := op ++ dst ++ sr1 ++ ofst6

/-- Format B of R89: `[0010] [nzpc] [8blmmVal]`. -/
def formatB (op : BitVec 4) (bn bz bp bc : Bool) (imm8 : BitVec 8) : Word :=
  op ++ flagBit bn ++ flagBit bz ++ flagBit bp ++ flagBit bc ++ imm8

/-- Format J of R90: `[0110] [000] [SR1] [r] [5blmm]`. -/
def formatJ (op : BitVec 4) (sr1 : Reg) (r : Bool) (imm5 : BitVec 5) : Word :=
  op ++ 0b000#3 ++ sr1 ++ flagBit r ++ imm5

/-- Format JL of R90: `[0111] [DST] [SR1] [0] [5blmm]`. -/
def formatJL (op : BitVec 4) (dst sr1 : Reg) (imm5 : BitVec 5) : Word := op ++ dst ++ sr1 ++ 0b0#1 ++ imm5

/-- Format Z of R91: the opcode and twelve literal zeros. -/
def formatZ (op : BitVec 4) : Word := op ++ 0#12

/-- The word of an instruction (R81 to R92). -/
def encode (i : Instr) : Word :=
  match i with
  | .nop => formatZ 0b0000#4
  | .swp dst sr1 ofst6 => formatM 0b0001#4 dst sr1 ofst6
  | .brc bn bz bp bc imm8 => formatB 0b0010#4 bn bz bp bc imm8
  | .hlt => formatZ 0b0011#4
  | .str src sr1 ofst6 => formatM 0b0100#4 src sr1 ofst6
  | .ldr dst sr1 ofst6 => formatM 0b0101#4 dst sr1 ofst6
  | .jpr sr1 imm5 => formatJ 0b0110#4 sr1 false imm5
  | .jprReturn sr1 imm5 => formatJ 0b0110#4 sr1 true imm5
  | .jlr dst sr1 imm5 => formatJL 0b0111#4 dst sr1 imm5
  | .addReg dst sr1 sr2 => formatRR 0b1000#4 dst sr1 sr2
  | .addImm dst sr1 imm5 => formatRI5 0b1000#4 dst sr1 imm5
  | .subReg dst sr1 sr2 => formatRR 0b1001#4 dst sr1 sr2
  | .subImm dst sr1 imm5 => formatRI5 0b1001#4 dst sr1 imm5
  | .lbi dst s imm8 => formatLI 0b1010#4 dst s imm8
  | .xorReg dst sr1 sr2 => formatRR 0b1011#4 dst sr1 sr2
  | .xorImm dst sr1 imm5 => formatRI5 0b1011#4 dst sr1 imm5
  | .shlReg dst sr1 sr2 => formatRR 0b1100#4 dst sr1 sr2
  | .shlImm dst sr1 imm4 => formatRI4 0b1100#4 dst sr1 imm4
  | .shrReg dst sr1 a sr2 => formatSRR 0b1101#4 dst sr1 a sr2
  | .shrImm dst sr1 a imm4 => formatSRI 0b1101#4 dst sr1 a imm4
  | .orrReg dst sr1 sr2 => formatRR 0b1110#4 dst sr1 sr2
  | .orrImm dst sr1 imm5 => formatRI5 0b1110#4 dst sr1 imm5
  | .andReg dst sr1 sr2 => formatRR 0b1111#4 dst sr1 sr2
  | .andImm dst sr1 imm5 => formatRI5 0b1111#4 dst sr1 imm5

/-- The host's view of the decoder: the instruction read from `nbits` bits `w`, bit 0 the least significant bit of the
first word. Every instruction is one word (R80); its bytes are laid out as memory holds them. -/
def decodeTableWord (nbits w : Nat) : Option Instr :=
  match decodeBytes (wordBytes (BitVec.ofNat 16 (w % 2 ^ nbits))) with
  | .ok (i, _) => some i
  | .error _ => none

end Sys2Proof
end

