-- ==== Sys2Proof/Machine/State.lean ====
section
/-! DEFINITION. The machine's state (spec/10_state.md R20 to R45, spec/20_memory.md R50 to R59), the reasons a step can
stop, and the state after reset. Every field is plain data; no step writes `params`, `draw` or `storage`. -/

namespace Sys2Proof.Machine

/-- The four condition codes (R25). -/
structure Cc where
  /-- Negative. -/
  n : Bool
  /-- Zero. -/
  z : Bool
  /-- Positive. -/
  p : Bool
  /-- Carry-out. -/
  c : Bool
  deriving DecidableEq, Repr

/-- The parameter PERIPH (R7, R58): what answers data byte addresses 0x8000 to 0xFFFF. -/
inductive Periph where
  /-- The model refuses the access: the spec's default. -/
  | refuse
  /-- Some device, its own state written as a number; what it does is the opaque functions of Config. -/
  | device (st : Nat)
  deriving DecidableEq, Repr

/-- The environment input IRQ (R7, R203): one bit at every coming instruction boundary, without end. -/
inductive Irq where
  /-- No request at any boundary from here on: the premise "IRQ is never 1" (R203). -/
  | never
  /-- Any bit at every boundary: environment `env`, with `boundary` the number of the coming one. The bits are the opaque
  `Config.irqBit`, so nothing is known of them (U14). -/
  | free (env boundary : Nat)
  /-- The given bit at the coming boundary, and then as `rest`. -/
  | bit (b : Bool) (rest : Irq)
  deriving DecidableEq, Repr

/-- A memory: the cells that have been written or loaded, addresses strictly rising. An unlisted address has no value
of its own; what a read of it gives is `Machine.dataByte` and `Machine.progByte` (assumptions 20 and 21). -/
abbrev Memory := List Host.Cell

/-- The machine's state. -/
structure State where
  /-- R0 to R7 (R20). -/
  regs : Vector Word 8
  /-- The program counter: the address of the instruction being executed (R22). -/
  pc : Word
  /-- The condition codes (R25). -/
  cc : Cc
  /-- Shadow program counter (R31). -/
  pcsh : Word
  /-- Shadow condition codes (R32). -/
  ccsh : Cc
  /-- Interrupt latch (R33). -/
  il : Bool
  /-- Halt latch (R34). -/
  hl : Bool
  /-- The free-memory half of the data address space (R53, R57). -/
  mem : Memory
  /-- The program address space (R51). -/
  prog : Memory
  /-- The storage address space (R59); no instruction reaches it. -/
  storage : Memory
  /-- The peripherals of the upper half of the data space (R58). -/
  periph : Periph
  /-- The environment's bit at every coming instruction boundary (R203). -/
  irq : Irq
  /-- Which draw of the unspecified memory contents this run has (R43, R44). -/
  draw : Nat
  /-- The run's parameters (R7). -/
  params : Params
  deriving DecidableEq, Repr

/-- Why the machine stops. -/
inductive Fault where
  /-- HL = 1: the machine has no step (R182, R217). Raised by `step` alone. Safe: the spec's own stuck state. -/
  | halted
  deriving DecidableEq, Repr

/-- Why the model gives a step no meaning. -/
inductive Refusal where
  /-- An instruction without a meaning yet. Raised by no arm of `exec`. Safe. -/
  | notModelled (mnemonic : String)
  /-- The fetched word is a reserved encoding and RESERVED_POLICY is `refuse` (R96). Raised by `step`. Safe. -/
  | reservedEncoding (word : Word)
  /-- LDR, STR or SWP reached a peripheral address and PERIPH is `refuse` (R55, R56). Safe. -/
  | peripheralAccess (addr : Word)
  deriving DecidableEq, Repr

/-- What a run starts with and the spec does not fix (R36, R230): each value is unspecified there. -/
structure Launch where
  regs : Vector Word 8
  cc : Cc
  pcsh : Word
  ccsh : Cc
  mem : Memory
  prog : Memory
  storage : Memory
  periph : Periph
  irq : Irq
  draw : Nat
  params : Params
  deriving DecidableEq, Repr

/-- A state right after reset (R36, R230): PC = RESET_PC, IL = 0, HL = 0, the rest as launched. -/
def State.launch (l : Launch) : State where
  regs := l.regs
  pc := l.params.resetPc
  cc := l.cc
  pcsh := l.pcsh
  ccsh := l.ccsh
  il := false
  hl := false
  mem := l.mem
  prog := l.prog
  storage := l.storage
  periph := l.periph
  irq := l.irq
  draw := l.draw
  params := l.params

/-- The launch of `State.reset`. DESIGN CHOICE, unsafe, assumption 17: zero in the registers, flags and shadows the spec
leaves unspecified. Nothing is listed in any memory (assumptions 20, 21, 22), any bit of IRQ at every boundary (assumption
14), PERIPH is `refuse` (assumption 12). -/
def Launch.default : Launch where
  regs := Vector.replicate 8 0x0000#16
  cc := ⟨false, false, false, false⟩
  pcsh := 0x0000#16
  ccsh := ⟨false, false, false, false⟩
  mem := []
  prog := []
  storage := []
  periph := .refuse
  irq := .free 0 0
  draw := 0
  params := Config.params

/-- The machine right after reset (R36). -/
def State.reset : State := State.launch Launch.default

end Sys2Proof.Machine
end

