-- ==== Sys2Proof/Machine/Ops.lean ====
section
/-! DEFINITION. The named operations over registers, memories, the program counter and the interrupt state, which every
meaning goes through. -/

namespace Sys2Proof.Machine

/-! ### Registers and program counter -/

/-- `x[i]` of R10: the value of Ri. No register is hard-wired (R20). -/
def State.reg (s : State) (r : Reg) : Word := s.regs[r.toNat]'(r.isLt)

/-- `x[i] <- v` of R10. -/
def State.setReg (s : State) (r : Reg) (v : Word) : State := { s with regs := s.regs.set r.toNat v r.isLt }

/-- `pc <- t` of R10. -/
def State.setPc (s : State) (t : Word) : State := { s with pc := t }

/-- `CC <- v` of R10. -/
def State.setCc (s : State) (v : Cc) : State := { s with cc := v }

/-- The address of the next sequential instruction, modulo 2^16 (R22, R24). -/
def State.nextPc (s : State) : Word := s.pc + 2#16

/-- `pc <- pc + 2` (R23). -/
def State.advance (s : State) : State := s.setPc s.nextPc

/-! ### Memories as lists of cells -/

/-- The byte listed at an address, if one is. -/
def memLookup (m : Memory) (a : Nat) : Option Byte :=
  match m with
  | [] => none
  | (k, v) :: rest => if k = a then some v else memLookup rest a

/-- The list with the byte at an address replaced or entered in its place. -/
def memInsert (m : Memory) (a : Nat) (v : Byte) : Memory :=
  match m with
  | [] => [(a, v)]
  | (k, w) :: rest =>
    if a < k then (a, v) :: (k, w) :: rest
    else if a = k then (a, v) :: rest
    else (k, w) :: memInsert rest a v

/-- The list with a word at an even address and the one after it. -/
def memInsertWord (m : Memory) (a : Nat) (v : Word) : Memory :=
  memInsert (memInsert m a (lowByte v)) (a + 1) (highByte v)

/-- Every address of the list is at least `lo` and below `hi`, and they rise strictly. -/
def Memory.wfFrom (lo hi : Nat) (m : Memory) : Bool :=
  match m with
  | [] => true
  | (k, _) :: rest => decide (lo ≤ k) && decide (k < hi) && Memory.wfFrom (k + 1) hi rest

/-- The canonical form of a memory of `size` bytes: addresses strictly rising and below `size`. No entry can equal what
an unlisted address reads as, since an unlisted address has no value of its own. -/
def Memory.wf (size : Nat) (m : Memory) : Bool := Memory.wfFrom 0 size m

/-! ### Program space -/

/-- The byte of the program space at an address: the loaded cell, else PROGRAM's own (R44, R51). -/
def progByte (s : State) (a : Nat) : Byte := (memLookup s.prog a).getD (Config.programByte s.draw a)

/-- "Floored to the nearest word aligned address": bit 0 cleared (R12, R54). -/
def floorWord (a : Word) : Word := a &&& 0xFFFE#16

/-- `ProgRead(addr)` of R52: the word that holds the address, bit 0 ignored; it cannot fail. -/
def progRead (s : State) (addr : Word) : Word :=
  joinBytes (progByte s (floorWord addr).toNat) (progByte s ((floorWord addr).toNat + 1))

/-- Loading one word of PROGRAM from outside the machine, before the run (R44, R233). No step does it (R51). -/
def loadProgWord (s : State) (addr w : Word) : State :=
  { s with prog := memInsertWord s.prog (floorWord addr).toNat w }

/-! ### Data space -/

/-- The byte of free memory at an address: the last one written, else the launch contents (R43, R57). -/
def dataByte (s : State) (a : Nat) : Byte := (memLookup s.mem a).getD (Config.launchByte s.draw a)

/-- Whether the address is in the free-memory half, byte addresses 0x0000 to 0x7FFF (R57). -/
def isFreeMemory (addr : Word) : Bool := decide (addr.toNat < 0x8000)

/-- The word of free memory that holds an address (R55). -/
def freeRead (s : State) (addr : Word) : Word :=
  joinBytes (dataByte s (floorWord addr).toNat) (dataByte s ((floorWord addr).toNat + 1))

/-- All 16 bits of the word of free memory that holds an address replaced (R56). -/
def freeWrite (s : State) (addr v : Word) : State :=
  { s with mem := memInsertWord s.mem (floorWord addr).toNat v }

/-- `MemRead(addr, 2)` of R55: the word read and the state after the access; `none` when PERIPH refuses it. -/
def memRead (s : State) (addr : Word) : Option (Word × State) :=
  if isFreeMemory addr then some (freeRead s addr, s)
  else
    match s.periph with
    | .refuse => none
    | .device st =>
      some (Config.periphReadValue st (floorWord addr),
        { s with periph := .device (Config.periphAfterRead st (floorWord addr)) })

/-- `MemWrite(addr, 2, v)` of R56; `none` when PERIPH refuses it. -/
def memWrite (s : State) (addr v : Word) : Option State :=
  if isFreeMemory addr then some (freeWrite s addr v)
  else
    match s.periph with
    | .refuse => none
    | .device st => some { s with periph := .device (Config.periphAfterWrite st (floorWord addr) v) }

/-! ### Interrupts -/

/-- The bit at the coming boundary (R203). -/
def irqHead (q : Irq) : Bool :=
  match q with
  | .never => false
  | .free env boundary => Config.irqBit env boundary
  | .bit b _ => b

/-- The input from the boundary after the coming one on. -/
def irqRest (q : Irq) : Irq :=
  match q with
  | .never => .never
  | .free env boundary => .free env (boundary + 1)
  | .bit _ rest => rest

/-- The environment's bit at this instruction boundary (R203). -/
def irqNow (s : State) : Bool := irqHead s.irq

/-- The acceptance condition of R204. -/
def acceptsInterrupt (s : State) : Bool := !s.hl && (!s.il || s.params.intNesting)

/-- The peripherals' own change between two steps (R217). -/
def tickPeriph (p : Periph) : Periph :=
  match p with
  | .refuse => .refuse
  | .device st => .device (Config.periphTick st)

/-- Passing an instruction boundary: the environment's bit is used up, accepted or not (R203: no pending register), and
the peripherals change as they do. -/
def passBoundary (s : State) : State := { s with irq := irqRest s.irq, periph := tickPeriph s.periph }

/-- Interrupt entry (R206): PC and CC saved, IL set, PC at INT_VECTOR; nothing else changes. -/
def interruptEntry (s : State) : State :=
  { s with pcsh := s.pc, ccsh := s.cc, il := true, pc := s.params.intVector }

/-- The return from an interrupt (R163, R208): PC and CC from their shadows, IL cleared. -/
def returnFromInterrupt (s : State) : State := { s with pc := s.pcsh, cc := s.ccsh, il := false }

/-! ### Fetch and reset -/

/-- The instruction at the program counter, or why there is none (R52, R94, R96). -/
def fetch (s : State) : Except DecodeError Instr := decodeUnder s.params.reservedPolicy (progRead s s.pc)

/-- A hardware reset as an event outside the step (R230): a state as launched, with the machine's own parameters and the
storage space, which survives (R45). -/
def hardwareReset (s : State) (l : Launch) : State :=
  State.launch { l with storage := s.storage, params := s.params }

end Sys2Proof.Machine
end

