-- ==== Sys2Proof/Machine/Flags.lean ====
section
/-! DEFINITION. The condition codes: `SetCC` (spec/10_state.md R27), the carry bits (R28), the sums of ADD and SUB
(spec/42_arith.md R130, R132) and BRC's condition (spec/45_control.md R160). -/

namespace Sys2Proof.Machine

/-- `SetCC(res, carry)` (R27): n, z, p from the 16-bit result as stored. -/
def flagsOf (res : Word) (carry : Bool) : Cc where
  n := res.msb
  z := res == 0x0000#16
  p := !res.msb && res != 0x0000#16
  c := carry

/-- The 17-bit sum of two words and a carry in (R130, R132). -/
def sum17 (a b : Word) (cin : Bool) : BitVec 17 := a.setWidth 17 + b.setWidth 17 + (if cin then 1#17 else 0#17)

/-- The 17-bit sum of ADD (R130). -/
def addSum (a b : Word) : BitVec 17 := sum17 a b false

/-- The 17-bit sum of SUB, `op2 - x[sr1]` (R132). -/
def subSum (subtrahend op2 : Word) : BitVec 17 := sum17 op2 (~~~subtrahend) true

/-- `sum17[15:0]`. -/
def sumWord (v : BitVec 17) : Word := v.setWidth 16

/-- `sum17[16]`. -/
def sumCarry (v : BitVec 17) : Bool := v.getLsbD 16

/-- The c flag of AND, ORR, XOR, SHL, SHR and LBI (R28): the parameter CARRY_OTHER, assumption 5. -/
def carryOther (op : CarryOp) (a b : Word) (oldC : Bool) : Bool := Config.carryOther op a b oldC

/-- Whether BRC is taken (R160): a selected flag of n, z, p is set, and c too if it is selected. -/
def branchTaken (bn bz bp bc : Bool) (cc : Cc) : Bool :=
  ((bn && cc.n) || (bz && cc.z) || (bp && cc.p)) && (!bc || cc.c)

/-- What every CC-updating instruction does with its result: DST and CC written, PC advanced (R23, R26, R27). -/
def writeResult (s : State) (dst : Reg) (res : Word) (carry : Bool) : State :=
  ((s.setReg dst res).setCc (flagsOf res carry)).advance

end Sys2Proof.Machine
end

