-- ==== Sys2Proof/Machine/Operands.lean ====
section
/-! DEFINITION. Operand forms: immediates (spec/30_encoding.md R93), the one data addressing mode (R54, R152), jump and
branch targets (R160, R162, R165), shift counts and shifts (R124, R125). -/

namespace Sys2Proof.Machine

/-- `sext_16(imm5)` (R93). -/
def sext5 (v : BitVec 5) : Word := v.signExtend 16

/-- `sext_16(ofst6)` (R93). -/
def sext6 (v : BitVec 6) : Word := v.signExtend 16

/-- `sext_16(imm8)` (R93). -/
def sext8 (v : BitVec 8) : Word := v.signExtend 16

/-- `zext_16(imm8)` (R93). -/
def zext8 (v : BitVec 8) : Word := v.setWidth 16

/-- `zext_16(imm4)` (R93). -/
def zext4 (v : BitVec 4) : Word := v.setWidth 16

/-- A sign-extended word offset as bytes: "logical left shifted by 1" (R93). -/
def wordsToBytes (v : Word) : Word := v <<< 1

/-- The computed data address before bit 0 is dropped, modulo 2^16 (R54). -/
def dataAddress (s : State) (sr1 : Reg) (ofst6 : BitVec 6) : Word := s.reg sr1 + wordsToBytes (sext6 ofst6)

/-- The effective address of LDR, STR and SWP (R54, R152). -/
def effectiveAddress (s : State) (sr1 : Reg) (ofst6 : BitVec 6) : Word := floorWord (dataAddress s sr1 ofst6)

/-- The target of JPR (r = 0) and JLR: the sum modulo 2^16, then bit 0 cleared (R162, R165, R166). -/
def jumpTarget (s : State) (sr1 : Reg) (imm5 : BitVec 5) : Word :=
  floorWord (s.reg sr1 + wordsToBytes (sext5 imm5))

/-- The target of a taken BRC, modulo 2^16 (R160). -/
def branchTarget (s : State) (imm8 : BitVec 8) : Word := s.nextPc + wordsToBytes (sext8 imm8)

/-- SHIFT_AMOUNT (R125): every reading agrees up to 15; beyond, the parameter decides. -/
def shiftAmount (v : Word) : Nat := if v.toNat ≤ 15 then v.toNat else Config.shiftAmountBeyond v

/-- `v << k` (R9): zeros enter at bit 0, bits leaving bit 15 are lost. -/
def shiftLeft (v : Word) (k : Nat) : Word := v <<< k

/-- `v >>a k` for `a` = 1, `v >> k` for `a` = 0 (R9, R122). -/
def shiftRight (a : Bool) (v : Word) (k : Nat) : Word := if a then v.sshiftRight k else v >>> k

/-- LBI's result (R140): the sign-extended byte, or the byte shifted in below the old low byte. -/
def lbiResult (s : Bool) (old : Word) (imm8 : BitVec 8) : Word :=
  if s then sext8 imm8 else (old <<< 8) ||| zext8 imm8

end Sys2Proof.Machine
end

