-- ==== Sys2Proof/Machine/Arith.lean ====
section
/-! DEFINITION. ADD, SUB (spec/42_arith.md). SUB is a reverse subtract: the second operand minus SR1 (R132). -/

namespace Sys2Proof.Machine

/-- A 17-bit sum written back: its low 16 bits, with bit 16 the carry. -/
def writeSum (dst : Reg) (sum : BitVec 17) (s : State) : Host.Outcome State Fault Refusal :=
  .next (writeResult s dst (sumWord sum) (sumCarry sum))

/-- ADD, register form (R130). -/
def execAddReg (dst sr1 sr2 : Reg) (s : State) : Host.Outcome State Fault Refusal :=
  writeSum dst (addSum (s.reg sr1) (s.reg sr2)) s

/-- ADD, immediate form (R131). -/
def execAddImm (dst sr1 : Reg) (imm5 : BitVec 5) (s : State) : Host.Outcome State Fault Refusal :=
  writeSum dst (addSum (s.reg sr1) (sext5 imm5)) s

/-- SUB, register form (R132). -/
def execSubReg (dst sr1 sr2 : Reg) (s : State) : Host.Outcome State Fault Refusal :=
  writeSum dst (subSum (s.reg sr1) (s.reg sr2)) s

/-- SUB, immediate form (R133). -/
def execSubImm (dst sr1 : Reg) (imm5 : BitVec 5) (s : State) : Host.Outcome State Fault Refusal :=
  writeSum dst (subSum (s.reg sr1) (sext5 imm5)) s

end Sys2Proof.Machine
end

