-- ==== Sys2Proof/Machine/Bitwise.lean ====
section
/-! DEFINITION. AND, ORR, XOR (spec/40_bitwise.md). -/

namespace Sys2Proof.Machine

/-- The shape the six share: the result and CARRY_OTHER of the two operands. -/
def bitwise (op : CarryOp) (f : Word → Word → Word) (dst : Reg) (a b : Word) (s : State) :
    Host.Outcome State Fault Refusal :=
  .next (writeResult s dst (f a b) (carryOther op a b s.cc.c))

/-- AND, register form (R110). -/
def execAndReg (dst sr1 sr2 : Reg) (s : State) : Host.Outcome State Fault Refusal :=
  bitwise .and (· &&& ·) dst (s.reg sr1) (s.reg sr2) s

/-- AND, immediate form (R111). -/
def execAndImm (dst sr1 : Reg) (imm5 : BitVec 5) (s : State) : Host.Outcome State Fault Refusal :=
  bitwise .and (· &&& ·) dst (s.reg sr1) (sext5 imm5) s

/-- ORR, register form (R112). -/
def execOrrReg (dst sr1 sr2 : Reg) (s : State) : Host.Outcome State Fault Refusal :=
  bitwise .orr (· ||| ·) dst (s.reg sr1) (s.reg sr2) s

/-- ORR, immediate form (R113). -/
def execOrrImm (dst sr1 : Reg) (imm5 : BitVec 5) (s : State) : Host.Outcome State Fault Refusal :=
  bitwise .orr (· ||| ·) dst (s.reg sr1) (sext5 imm5) s

/-- XOR, register form (R114). -/
def execXorReg (dst sr1 sr2 : Reg) (s : State) : Host.Outcome State Fault Refusal :=
  bitwise .xor (· ^^^ ·) dst (s.reg sr1) (s.reg sr2) s

/-- XOR, immediate form (R115). -/
def execXorImm (dst sr1 : Reg) (imm5 : BitVec 5) (s : State) : Host.Outcome State Fault Refusal :=
  bitwise .xor (· ^^^ ·) dst (s.reg sr1) (sext5 imm5) s

end Sys2Proof.Machine
end

