-- ==== Sys2Proof/Machine/Control.lean ====
section
/-! DEFINITION. BRC, JPR, JLR (spec/45_control.md). A taken transfer takes effect at once (R164). -/

namespace Sys2Proof.Machine

/-- BRC (R160). -/
def execBrc (bn bz bp bc : Bool) (imm8 : BitVec 8) (s : State) : Host.Outcome State Fault Refusal :=
  .next (if branchTaken bn bz bp bc s.cc then s.setPc (branchTarget s imm8) else s.advance)

/-- JPR with r = 0 (R162). -/
def execJpr (sr1 : Reg) (imm5 : BitVec 5) (s : State) : Host.Outcome State Fault Refusal :=
  .next (s.setPc (jumpTarget s sr1 imm5))

/-- JPR with r = 1 (R163): the other fields are ignored. -/
def execJprReturn (_sr1 : Reg) (_imm5 : BitVec 5) (s : State) : Host.Outcome State Fault Refusal :=
  .next (returnFromInterrupt s)

/-- JLR (R165): the target from the old SR1, the link `pc + 2` in DST. -/
def execJlr (dst sr1 : Reg) (imm5 : BitVec 5) (s : State) : Host.Outcome State Fault Refusal :=
  .next ((s.setReg dst s.nextPc).setPc (jumpTarget s sr1 imm5))

end Sys2Proof.Machine
end

