-- ==== Sys2Proof/Machine/LoadByte.lean ====
section
/-! DEFINITION. LBI (spec/43_lbi.md). -/

namespace Sys2Proof.Machine

/-- LBI (R140). CARRY_OTHER gets the old DST in both variants, as the rule writes it (assumption 27). -/
def execLbi (dst : Reg) (sel : Bool) (imm8 : BitVec 8) (s : State) : Host.Outcome State Fault Refusal :=
  .next (writeResult s dst (lbiResult sel (s.reg dst) imm8) (carryOther .lbi (s.reg dst) (zext8 imm8) s.cc.c))

end Sys2Proof.Machine
end

