-- ==== Sys2Proof/Machine/LoadStore.lean ====
section
/-! DEFINITION. LDR, STR (spec/44_load_store.md) and SWP (spec/46_swp.md). None writes CC; an address of the peripheral
half is PERIPH's affair (R55, R56). -/

namespace Sys2Proof.Machine

/-- LDR (R150). -/
def execLdr (dst sr1 : Reg) (ofst6 : BitVec 6) (s : State) : Host.Outcome State Fault Refusal :=
  match memRead s (effectiveAddress s sr1 ofst6) with
  | some (v, t) => .next (t.setReg dst v).advance
  | none => .refused (.peripheralAccess (effectiveAddress s sr1 ofst6))

/-- STR (R151). -/
def execStr (src sr1 : Reg) (ofst6 : BitVec 6) (s : State) : Host.Outcome State Fault Refusal :=
  match memWrite s (effectiveAddress s sr1 ofst6) (s.reg src) with
  | some t => .next t.advance
  | none => .refused (.peripheralAccess (effectiveAddress s sr1 ofst6))

/-- SWP (R170): the read, then the write of the old register to the same word, then the register; one step. -/
def execSwp (dst sr1 : Reg) (ofst6 : BitVec 6) (s : State) : Host.Outcome State Fault Refusal :=
  match memRead s (effectiveAddress s sr1 ofst6) with
  | some (v, t) =>
    match memWrite t (effectiveAddress s sr1 ofst6) (s.reg dst) with
    | some u => .next (u.setReg dst v).advance
    | none => .refused (.peripheralAccess (effectiveAddress s sr1 ofst6))
  | none => .refused (.peripheralAccess (effectiveAddress s sr1 ofst6))

end Sys2Proof.Machine
end

