-- ==== Sys2Proof/Machine/Shift.lean ====
section
/-! DEFINITION. SHL, SHR (spec/41_shift.md). CARRY_OTHER's second operand is the count register's value, or the
immediate count (R120 to R123). -/

namespace Sys2Proof.Machine

/-- SHL, register form (R120, R125). -/
def execShlReg (dst sr1 sr2 : Reg) (s : State) : Host.Outcome State Fault Refusal :=
  .next (writeResult s dst (shiftLeft (s.reg sr1) (shiftAmount (s.reg sr2)))
    (carryOther .shl (s.reg sr1) (s.reg sr2) s.cc.c))

/-- SHL, immediate form (R121, R124). -/
def execShlImm (dst sr1 : Reg) (imm4 : BitVec 4) (s : State) : Host.Outcome State Fault Refusal :=
  .next (writeResult s dst (shiftLeft (s.reg sr1) (zext4 imm4).toNat)
    (carryOther .shl (s.reg sr1) (zext4 imm4) s.cc.c))

/-- SHR, register form (R122, R125). -/
def execShrReg (dst sr1 : Reg) (a : Bool) (sr2 : Reg) (s : State) : Host.Outcome State Fault Refusal :=
  .next (writeResult s dst (shiftRight a (s.reg sr1) (shiftAmount (s.reg sr2)))
    (carryOther .shr (s.reg sr1) (s.reg sr2) s.cc.c))

/-- SHR, immediate form (R123, R124). -/
def execShrImm (dst sr1 : Reg) (a : Bool) (imm4 : BitVec 4) (s : State) : Host.Outcome State Fault Refusal :=
  .next (writeResult s dst (shiftRight a (s.reg sr1) (zext4 imm4).toNat)
    (carryOther .shr (s.reg sr1) (zext4 imm4) s.cc.c))

end Sys2Proof.Machine
end

