-- ==== Sys2Proof/Machine/System.lean ====
section
/-! DEFINITION. NOP and HLT (spec/47_nop_hlt.md). -/

namespace Sys2Proof.Machine

/-- NOP (R180). -/
def execNop (s : State) : Host.Outcome State Fault Refusal := .next s.advance

/-- HLT (R181): HL set, PC kept. -/
def execHlt (s : State) : Host.Outcome State Fault Refusal := .next { s with hl := true }

end Sys2Proof.Machine
end

