-- ==== Sys2Proof/Machine/Step.lean ====
section
/-! DEFINITION. One step of the machine (spec/60_exceptions.md R217), and the placing of one instruction to be run. -/

namespace Sys2Proof.Machine

/-- The step of R217: none when halted; else interrupt entry if a request is presented and accepted; else the fetched
instruction; else the reserved word's refusal. -/
def step (s : State) : Host.Outcome State Fault Refusal :=
  if s.hl then .fault .halted
  else if irqNow s && acceptsInterrupt s then .next (interruptEntry (passBoundary s))
  else
    match fetch s with
    | .ok i => exec i (passBoundary s)
    | .error _ => .refused (.reservedEncoding (progRead s s.pc))

/-- The state with the instruction of `nbits` bits `w` loaded where `step` fetches next, the halt latch clear and no
request at this boundary, so that the very next step runs it (assumption 28). -/
def State.withFetchWord (s : State) (nbits w : Nat) : State :=
  { loadProgWord s s.pc (BitVec.ofNat 16 (w % 2 ^ nbits)) with
    hl := false
    irq := .bit false (irqRest s.irq) }

end Sys2Proof.Machine
end

