-- ==== Sys2Proof/Safety.lean ====
section
/-! DEFINITION. What claims count as a good state and a safe step. -/

namespace Sys2Proof

open Machine

/-- Every memory is in canonical form: MEM lists only free memory (R57), PROG and storage only their 64 kilobytes
(R51, R59). -/
def Safety.memoriesWf (s : State) : Bool :=
  Memory.wf 0x8000 s.mem && Memory.wf 0x10000 s.prog && Memory.wf 0x10000 s.storage

/-- Exactly one of n, z, p is set (R29). -/
def Safety.oneSign (cc : Cc) : Bool :=
  (cc.n && !cc.z && !cc.p) || (!cc.n && cc.z && !cc.p) || (!cc.n && !cc.z && cc.p)

/-- CC and its shadow each have exactly one of n, z, p set. -/
def Safety.flagsSound (s : State) : Bool := Safety.oneSign s.cc && Safety.oneSign s.ccsh

/-- PC, its shadow and the interrupt vector name word-aligned addresses (R24). -/
def Safety.pcAligned (s : State) : Bool :=
  !s.pc.getLsbD 0 && !s.pcsh.getLsbD 0 && !s.params.intVector.getLsbD 0

/-- The step does not leave the model: it answers a next state, or the machine is halted as the spec says (R239). -/
def Safety.stepSafe (s : State) : Bool :=
  match step s with
  | .next _ => true
  | .fault .halted => true
  | .refused _ => false

end Sys2Proof
end

