-- ==== Sys2Proof/Certificates/Slice0/Obligations.lean ====
section
/-! DEFINITION. The statements for the provers. Each docstring names the rules of spec/ it formalises; where a clause rests
on a choice the spec marks as its own, or on an entry of notes/assumptions/, the docstring says so. -/

namespace Sys2Proof.Claims

open Machine

/-! ### The vocabulary of the statements -/

/-- No byte of the data, program and storage spaces reads differently. -/
def KeepsSpaces (s t : State) : Prop :=
  (∀ a, dataByte t a = dataByte s a) ∧ (∀ a, progByte t a = progByte s a) ∧ t.storage = s.storage

/-- Every general register keeps its value, but for `dst`. -/
def KeepsRegsBut (dst : Reg) (s t : State) : Prop := ∀ r, r ≠ dst → t.reg r = s.reg r

/-- The shadows, the latches and the model's own fields keep their values. -/
def KeepsSystem (s t : State) : Prop :=
  t.pcsh = s.pcsh ∧ t.ccsh = s.ccsh ∧ t.il = s.il ∧ t.hl = s.hl ∧ t.irq = s.irq ∧ t.draw = s.draw ∧
    t.params = s.params

/-- n, z, p are the sign of a 16-bit result read as a signed integer (R25, R27). -/
def SignFlags (res : Word) (cc : Cc) : Prop :=
  (cc.n = true ↔ res.toInt < 0) ∧ (cc.z = true ↔ res.toInt = 0) ∧ (cc.p = true ↔ 0 < res.toInt)

/-- The whole effect of a CC-updating instruction with the given result: DST, CC and PC, and nothing else. -/
def ResultEffect (s t : State) (dst : Reg) (res : Word) : Prop :=
  t.reg dst = res ∧ KeepsRegsBut dst s t ∧ SignFlags res t.cc ∧ t.pc = s.pc + 2#16 ∧ KeepsSpaces s t ∧
    KeepsSystem s t ∧ t.periph = s.periph

/-- The word of `i` has the mask and match of its row (R92), and decodes to `i`. -/
def Encodes (i : Instr) (mask pattern : Word) : Prop := encode i &&& mask = pattern ∧ decode (encode i) = .ok i

/-- The two's complement word of a signed field. -/
def signedWord {k : Nat} (v : BitVec k) : Word := BitVec.ofInt 16 v.toInt

/-- A bitwise instruction: it runs in every state, its result is `f` bit by bit, c is CARRY_OTHER of the operands. -/
def BitwiseRule (i : Instr) (op : CarryOp) (f : Bool → Bool → Bool) (dst : Reg) (a b : Word) (s : State) : Prop :=
  ∃ t res, exec i s = .next t ∧ (∀ k, res.getLsbD k = f (a.getLsbD k) (b.getLsbD k)) ∧
    ResultEffect s t dst res ∧ t.cc.c = Config.carryOther op a b s.cc.c

/-- ADD of two words: the sum modulo 2^16, c = 1 iff the unsigned sum is 65536 or more. -/
def AddRule (i : Instr) (dst : Reg) (a b : Word) (s : State) : Prop :=
  ∃ t res, exec i s = .next t ∧ res.toNat = (a.toNat + b.toNat) % 65536 ∧ ResultEffect s t dst res ∧
    (t.cc.c = true ↔ 65536 ≤ a.toNat + b.toNat)

/-- SUB of `a` from `b`: the difference modulo 2^16, c = 1 iff `b` is at least `a` as unsigned numbers. -/
def SubRule (i : Instr) (dst : Reg) (a b : Word) (s : State) : Prop :=
  ∃ t res, exec i s = .next t ∧ (res.toNat : Int) = ((b.toNat : Int) - a.toNat) % 65536 ∧
    ResultEffect s t dst res ∧ (t.cc.c = true ↔ a.toNat ≤ b.toNat)

/-- The value of a shift of `v` by `k`: left, logical right, or arithmetic right (the floor of the signed quotient). -/
def ShiftedLeft (v : Word) (k : Nat) (res : Word) : Prop := res.toNat = v.toNat * 2 ^ k % 65536

/-- See `ShiftedLeft`. -/
def ShiftedRight (a : Bool) (v : Word) (k : Nat) (res : Word) : Prop :=
  (a = false → res.toNat = v.toNat / 2 ^ k) ∧ (a = true → res.toInt = v.toInt / 2 ^ k)

/-- The count SHIFT_AMOUNT takes from a register (R125): its value up to 15, a free value beyond. -/
def ShiftCount (v : Word) (k : Nat) : Prop :=
  (v.toNat ≤ 15 → k = v.toNat) ∧ (15 < v.toNat → k = Config.shiftAmountBeyond v)

/-- The instructions that update CC from a result (R26). -/
def updatesCc (i : Instr) : Bool :=
  match i with
  | .addReg _ _ _ | .addImm _ _ _ | .subReg _ _ _ | .subImm _ _ _ | .lbi _ _ _ | .xorReg _ _ _ | .xorImm _ _ _
  | .shlReg _ _ _ | .shlImm _ _ _ | .shrReg _ _ _ _ | .shrImm _ _ _ _ | .orrReg _ _ _ | .orrImm _ _ _
  | .andReg _ _ _ | .andImm _ _ _ => true
  | .nop | .swp _ _ _ | .brc _ _ _ _ _ | .hlt | .str _ _ _ | .ldr _ _ _ | .jpr _ _ | .jprReturn _ _
  | .jlr _ _ _ => false

/-- The register an instruction writes, by the table of R20. -/
def destination (i : Instr) : Option Reg :=
  match i with
  | .swp dst _ _ | .ldr dst _ _ | .jlr dst _ _ | .addReg dst _ _ | .addImm dst _ _ | .subReg dst _ _
  | .subImm dst _ _ | .lbi dst _ _ | .xorReg dst _ _ | .xorImm dst _ _ | .shlReg dst _ _ | .shlImm dst _ _
  | .shrReg dst _ _ _ | .shrImm dst _ _ _ | .orrReg dst _ _ | .orrImm dst _ _ | .andReg dst _ _
  | .andImm dst _ _ => some dst
  | .nop | .brc _ _ _ _ _ | .hlt | .str _ _ _ | .jpr _ _ | .jprReturn _ _ => none

/-- Whether the instruction is the return from interrupt. -/
def isReturn (i : Instr) : Bool :=
  match i with
  | .jprReturn _ _ => true
  | _ => false

/-- Whether the instruction is HLT. -/
def isHalt (i : Instr) : Bool :=
  match i with
  | .hlt => true
  | _ => false

/-- Whether the instruction stores to the data space (R70). -/
def stores (i : Instr) : Bool :=
  match i with
  | .str _ _ _ | .swp _ _ _ => true
  | _ => false

/-- BRC's condition in the words of R160. -/
def BranchCondition (bn bz bp bc : Bool) (cc : Cc) : Prop :=
  ((bn = true ∧ cc.n = true) ∨ (bz = true ∧ cc.z = true) ∨ (bp = true ∧ cc.p = true)) ∧ (bc = true → cc.c = true)

/-- The new PC of every instruction, by the table of R23. -/
def newPc (i : Instr) (s : State) (pc : Word) : Prop :=
  match i with
  | .brc bn bz bp bc imm8 =>
    (BranchCondition bn bz bp bc s.cc → pc = s.pc + 2#16 + (imm8.signExtend 16 <<< 1)) ∧
    (¬ BranchCondition bn bz bp bc s.cc → pc = s.pc + 2#16)
  | .jpr sr1 imm5 | .jlr _ sr1 imm5 => pc = (s.reg sr1 + (imm5.signExtend 16 <<< 1)) &&& 0xFFFE#16
  | .jprReturn _ _ => pc = s.pcsh
  | .hlt => pc = s.pc
  | _ => pc = s.pc + 2#16

/-- What a load of a word of free memory leaves: DST the word, PC advanced, nothing else. -/
def LoadEffect (s t : State) (dst : Reg) (v : Word) : Prop :=
  t.reg dst = v ∧ KeepsRegsBut dst s t ∧ t.cc = s.cc ∧ t.pc = s.pc + 2#16 ∧ KeepsSpaces s t ∧ KeepsSystem s t ∧
    t.periph = s.periph

/-- The word of free memory at an even address becomes `v`; no other byte of any space changes. -/
def StoresWord (s t : State) (ea v : Word) : Prop :=
  freeRead t ea = v ∧ (∀ k, k ≠ ea.toNat → k ≠ ea.toNat + 1 → dataByte t k = dataByte s k) ∧
    (∀ k, progByte t k = progByte s k) ∧ t.storage = s.storage

/-- The number of an instruction's word: every field weighed by the lowest bit R81 gives it (`inst[11:9]` 512, `inst[8:6]`
64, `inst[8]` 256, `inst[5]` 32, `inst[4]` 16, BRC's four 2048, 1024, 512, 256), over the opcode and selector bits. -/
def wordNumber (i : Instr) : Nat :=
  match i with
  | .nop => 0x0000
  | .swp dst sr1 ofst6 => 0x1000 + dst.toNat * 512 + sr1.toNat * 64 + ofst6.toNat
  | .brc bn bz bp bc imm8 =>
    0x2000 + bn.toNat * 2048 + bz.toNat * 1024 + bp.toNat * 512 + bc.toNat * 256 + imm8.toNat
  | .hlt => 0x3000
  | .str src sr1 ofst6 => 0x4000 + src.toNat * 512 + sr1.toNat * 64 + ofst6.toNat
  | .ldr dst sr1 ofst6 => 0x5000 + dst.toNat * 512 + sr1.toNat * 64 + ofst6.toNat
  | .jpr sr1 imm5 => 0x6000 + sr1.toNat * 64 + imm5.toNat
  | .jprReturn sr1 imm5 => 0x6020 + sr1.toNat * 64 + imm5.toNat
  | .jlr dst sr1 imm5 => 0x7000 + dst.toNat * 512 + sr1.toNat * 64 + imm5.toNat
  | .addReg dst sr1 sr2 => 0x8000 + dst.toNat * 512 + sr1.toNat * 64 + sr2.toNat
  | .addImm dst sr1 imm5 => 0x8020 + dst.toNat * 512 + sr1.toNat * 64 + imm5.toNat
  | .subReg dst sr1 sr2 => 0x9000 + dst.toNat * 512 + sr1.toNat * 64 + sr2.toNat
  | .subImm dst sr1 imm5 => 0x9020 + dst.toNat * 512 + sr1.toNat * 64 + imm5.toNat
  | .lbi dst s imm8 => 0xA000 + dst.toNat * 512 + s.toNat * 256 + imm8.toNat
  | .xorReg dst sr1 sr2 => 0xB000 + dst.toNat * 512 + sr1.toNat * 64 + sr2.toNat
  | .xorImm dst sr1 imm5 => 0xB020 + dst.toNat * 512 + sr1.toNat * 64 + imm5.toNat
  | .shlReg dst sr1 sr2 => 0xC000 + dst.toNat * 512 + sr1.toNat * 64 + sr2.toNat
  | .shlImm dst sr1 imm4 => 0xC020 + dst.toNat * 512 + sr1.toNat * 64 + imm4.toNat
  | .shrReg dst sr1 a sr2 => 0xD000 + dst.toNat * 512 + sr1.toNat * 64 + a.toNat * 16 + sr2.toNat
  | .shrImm dst sr1 a imm4 => 0xD020 + dst.toNat * 512 + sr1.toNat * 64 + a.toNat * 16 + imm4.toNat
  | .orrReg dst sr1 sr2 => 0xE000 + dst.toNat * 512 + sr1.toNat * 64 + sr2.toNat
  | .orrImm dst sr1 imm5 => 0xE020 + dst.toNat * 512 + sr1.toNat * 64 + imm5.toNat
  | .andReg dst sr1 sr2 => 0xF000 + dst.toNat * 512 + sr1.toNat * 64 + sr2.toNat
  | .andImm dst sr1 imm5 => 0xF020 + dst.toNat * 512 + sr1.toNat * 64 + imm5.toNat

/-- The word with the literal bits that R96 lists for its opcode and selector put right, every other bit kept. -/
def literalBitsCorrected (w : Word) : Word :=
  match (w.extractLsb' 12 4).toNat with
  | 0 | 3 => w &&& 0xF000#16
  | 6 => w &&& 0xF1FF#16
  | 7 => w &&& 0xFFDF#16
  | 8 | 9 | 11 | 14 | 15 => if w.getLsbD 5 then w else w &&& 0xFFE7#16
  | 12 => if w.getLsbD 5 then w &&& 0xFFEF#16 else w &&& 0xFFE7#16
  | 13 => if w.getLsbD 5 then w else w &&& 0xFFF7#16
  | _ => w

/-- The bit of the input IRQ at the boundary `n` after the coming one. -/
def requestAt (q : Irq) (n : Nat) : Bool :=
  match n with
  | 0 => irqHead q
  | n + 1 => requestAt (irqRest q) n

end Sys2Proof.Claims

open Sys2Proof Sys2Proof.Machine Sys2Proof.Claims

/-! ### Decoding and encoding -/

/-- Every instruction, with every operand at every value its field admits, is read back from its word, alone (R94) and at
the front of any bytes. -/
def Obligations.DecodeOfEncode : Prop :=
  ∀ i : Instr, decode (encode i) = .ok i ∧ ∀ rest, decodeBytes (wordBytes (encode i) ++ rest) = .ok (i, rest)

/-- The decoding procedure of R94 over the rows of R92: the decoder is total, its answer is an instruction exactly on the
words some row accepts, and then the instruction is of a row that accepts the word and the word is its encoding. -/
def Obligations.DecodeIsTheOpcodeMap : Prop :=
  ∀ w : Word, ((∃ i, decode w = .ok i) ↔ Word.wellFormed w = true) ∧
    ((∃ r, decode w = .error (.reserved r)) ↔ Word.wellFormed w = false) ∧
    ∀ i, decode w = .ok i → i.row ∈ opcodeRows ∧ i.row.accepts w = true ∧ encode i = w

/-- The 24 rows of R92 are pairwise disjoint (derived there by enumeration). -/
def Obligations.OpcodeRowsDisjoint : Prop :=
  opcodeRows.length = 24 ∧ opcodeRows.Pairwise (fun a b => ∀ w, ¬ (a.accepts w = true ∧ b.accepts w = true))

/-- RESERVED_POLICY (R96, decision D2, assumption 11). Under `ignore_bits` a word decodes as the word with its ignored
literal bits put right does, which is a defined word with the same opcode, selector and operand fields, and is the word
itself where that is defined: so to an instruction of its own opcode, the one `decode` gives where `decode` gives one.
Under `refuse` decoding is `decode`. -/
def Obligations.IgnoreBitsDecodesByOpcode : Prop :=
  ∀ w : Word, (∃ i, decodeUnder .ignoreBits w = .ok i ∧ decode (literalBitsCorrected w) = .ok i ∧
      i.row.pattern.extractLsb' 12 4 = w.extractLsb' 12 4 ∧ ∀ j, decode w = .ok j → j = i) ∧
    (Word.wellFormed w = true → literalBitsCorrected w = w) ∧
    decodeUnder .refuse w = decode w

/-- Decoder vectors of spec/95_test_vectors.md 2.9 and 2.1 to 2.8, one at least for every family. -/
def Obligations.SpecWordsDecode : Prop :=
  decode 0x0000#16 = .ok .nop ∧ decode 0x3000#16 = .ok .hlt ∧ decode 0x1FFF#16 = .ok (.swp 7 7 0x3F) ∧
  decode 0x2F05#16 = .ok (.brc true true true true 5) ∧ decode 0x4A41#16 = .ok (.str 5 1 1) ∧
  decode 0x5FE0#16 = .ok (.ldr 7 7 0x20) ∧ decode 0x61DF#16 = .ok (.jpr 7 0x1F) ∧
  decode 0x6167#16 = .ok (.jprReturn 5 7) ∧ decode 0x7EC2#16 = .ok (.jlr 7 3 2) ∧
  decode 0x9283#16 = .ok (.subReg 1 2 3) ∧ decode 0xA9FF#16 = .ok (.lbi 4 true 0xFF) ∧
  decode 0xC2A8#16 = .ok (.shlImm 1 2 8) ∧ decode 0xD293#16 = .ok (.shrReg 1 2 true 3) ∧
  decode 0xF2B0#16 = .ok (.andImm 1 2 0x10) ∧ decode 0x7FFF#16 = .error (.reserved .jlrSelector)

/-- R93: every immediate is one contiguous field at the bottom of the word; the sign-extended ones keep their signed value
and range; the shift by one loses nothing; imm4 and LBI's imm8 are zero-extended (imm8 by the spec's own decision D8,
assumption 7). -/
def Obligations.ImmediatesExtendAsTheSpecSays : Prop :=
  (∀ w : Word, (imm5Field w).toNat = w.toNat % 32 ∧ (imm4Field w).toNat = w.toNat % 16 ∧
    (ofst6Field w).toNat = w.toNat % 64 ∧ (imm8Field w).toNat = w.toNat % 256) ∧
  (∀ v : BitVec 5, (sext5 v).toInt = v.toInt ∧ -16 ≤ v.toInt ∧ v.toInt ≤ 15 ∧
    (wordsToBytes (sext5 v)).toInt = 2 * v.toInt) ∧
  (∀ v : BitVec 6, (sext6 v).toInt = v.toInt ∧ -32 ≤ v.toInt ∧ v.toInt ≤ 31 ∧
    (wordsToBytes (sext6 v)).toInt = 2 * v.toInt) ∧
  (∀ v : BitVec 8, (sext8 v).toInt = v.toInt ∧ -128 ≤ v.toInt ∧ v.toInt ≤ 127 ∧
    (wordsToBytes (sext8 v)).toInt = 2 * v.toInt) ∧
  (∀ v : BitVec 8, (zext8 v).toNat = v.toNat) ∧ (∀ v : BitVec 4, (zext4 v).toNat = v.toNat)

/-! ### Results of the instructions -/

/-- R110 to R115: AND, ORR and XOR in both forms run in every state; the result is bit by bit, n, z, p its sign, c the
parameter CARRY_OTHER (whatever it is), PC advanced, nothing else changed. -/
def Obligations.BitwiseResults : Prop :=
  ∀ (s : State) (dst sr1 sr2 : Reg) (imm5 : BitVec 5),
    (Encodes (.andReg dst sr1 sr2) 0xF038#16 0xF000#16 ∧
      BitwiseRule (.andReg dst sr1 sr2) .and (· && ·) dst (s.reg sr1) (s.reg sr2) s) ∧
    (Encodes (.andImm dst sr1 imm5) 0xF020#16 0xF020#16 ∧
      BitwiseRule (.andImm dst sr1 imm5) .and (· && ·) dst (s.reg sr1) (signedWord imm5) s) ∧
    (Encodes (.orrReg dst sr1 sr2) 0xF038#16 0xE000#16 ∧
      BitwiseRule (.orrReg dst sr1 sr2) .orr (· || ·) dst (s.reg sr1) (s.reg sr2) s) ∧
    (Encodes (.orrImm dst sr1 imm5) 0xF020#16 0xE020#16 ∧
      BitwiseRule (.orrImm dst sr1 imm5) .orr (· || ·) dst (s.reg sr1) (signedWord imm5) s) ∧
    (Encodes (.xorReg dst sr1 sr2) 0xF038#16 0xB000#16 ∧
      BitwiseRule (.xorReg dst sr1 sr2) .xor (· ^^ ·) dst (s.reg sr1) (s.reg sr2) s) ∧
    (Encodes (.xorImm dst sr1 imm5) 0xF020#16 0xB020#16 ∧
      BitwiseRule (.xorImm dst sr1 imm5) .xor (· ^^ ·) dst (s.reg sr1) (signedWord imm5) s)

/-- R121, R123, R124: the immediate shifts by 0 to 15 run in every state; the arithmetic right shift is the floor of the
signed quotient; c is CARRY_OTHER of the value and the count. -/
def Obligations.ImmediateShiftResults : Prop :=
  ∀ (s : State) (dst sr1 : Reg) (a : Bool) (imm4 : BitVec 4),
    (Encodes (.shlImm dst sr1 imm4) 0xF030#16 0xC020#16 ∧
      ∃ t res, exec (.shlImm dst sr1 imm4) s = .next t ∧ ShiftedLeft (s.reg sr1) imm4.toNat res ∧
        ResultEffect s t dst res ∧
        t.cc.c = Config.carryOther .shl (s.reg sr1) (BitVec.ofNat 16 imm4.toNat) s.cc.c) ∧
    (Encodes (.shrImm dst sr1 a imm4) 0xF020#16 0xD020#16 ∧
      ∃ t res, exec (.shrImm dst sr1 a imm4) s = .next t ∧ ShiftedRight a (s.reg sr1) imm4.toNat res ∧
        ResultEffect s t dst res ∧
        t.cc.c = Config.carryOther .shr (s.reg sr1) (BitVec.ofNat 16 imm4.toNat) s.cc.c)

/-- R120, R122, R125: the register shifts run in every state, whatever the count register holds. Up to 15 the count is its
value; beyond, it is the open parameter SHIFT_AMOUNT (D7), a free value (assumption 6). -/
def Obligations.RegisterShiftResults : Prop :=
  ∀ (s : State) (dst sr1 sr2 : Reg) (a : Bool),
    (∃ t res k, exec (.shlReg dst sr1 sr2) s = .next t ∧ ShiftCount (s.reg sr2) k ∧ ShiftedLeft (s.reg sr1) k res ∧
      ResultEffect s t dst res ∧ t.cc.c = Config.carryOther .shl (s.reg sr1) (s.reg sr2) s.cc.c) ∧
    (∃ t res k, exec (.shrReg dst sr1 a sr2) s = .next t ∧ ShiftCount (s.reg sr2) k ∧
      ShiftedRight a (s.reg sr1) k res ∧ ResultEffect s t dst res ∧
      t.cc.c = Config.carryOther .shr (s.reg sr1) (s.reg sr2) s.cc.c)

/-- R130, R131: ADD. That c is the unsigned carry-out and that n, z, p are of the stored result are the spec's own
decisions D5 and D4 (assumption 4). -/
def Obligations.AddResults : Prop :=
  ∀ (s : State) (dst sr1 sr2 : Reg) (imm5 : BitVec 5),
    AddRule (.addReg dst sr1 sr2) dst (s.reg sr1) (s.reg sr2) s ∧
    AddRule (.addImm dst sr1 imm5) dst (s.reg sr1) (signedWord imm5) s

/-- R132, R133: SUB is the second operand minus SR1, c = 1 iff no borrow. The flags rest on the spec's decisions D4 and D5
and its derivation of SUB's carry from Table B2 (R28, assumption 4). -/
def Obligations.SubResults : Prop :=
  ∀ (s : State) (dst sr1 sr2 : Reg) (imm5 : BitVec 5),
    SubRule (.subReg dst sr1 sr2) dst (s.reg sr1) (s.reg sr2) s ∧
    SubRule (.subImm dst sr1 imm5) dst (s.reg sr1) (signedWord imm5) s

/-- R140: LBI with s = 1 loads the signed byte; with s = 0 the old low byte becomes the high byte and the byte enters
below it, zero-extended by the spec's own decision D8 (assumption 7). -/
def Obligations.LoadByteResults : Prop :=
  ∀ (s : State) (dst : Reg) (sel : Bool) (imm8 : BitVec 8), ∃ t res, exec (.lbi dst sel imm8) s = .next t ∧
    (sel = true → res.toInt = imm8.toInt) ∧
    (sel = false → res.toNat = (s.reg dst).toNat % 256 * 256 + imm8.toNat) ∧
    ResultEffect s t dst res ∧
    t.cc.c = Config.carryOther .lbi (s.reg dst) (BitVec.ofNat 16 imm8.toNat) s.cc.c

/-- R141: `LBI.s Rd, #H` then `LBI Rd, #L` leaves H*256 + L, with the flags of the whole constant. That
`LBI Rd, #L` brings its byte in zero-extended is the spec's own decision D8 (assumption 7). -/
def Obligations.LoadBytePairBuildsAnyConstant : Prop :=
  ∀ (s : State) (dst : Reg) (high low : BitVec 8), ∃ t u, exec (.lbi dst true high) s = .next t ∧
    exec (.lbi dst false low) t = .next u ∧ (u.reg dst).toNat = high.toNat * 256 + low.toNat ∧
    SignFlags (u.reg dst) u.cc ∧ KeepsRegsBut dst s u ∧ u.pc = s.pc + 4#16

/-- R150: LDR from free memory loads the word, writes no flag and no byte; from a peripheral address, PERIPH decides, and
with its default the model refuses. That free memory reads without side effects is the spec's own decision D30 (assumption
25), the refusal the default of PERIPH (D14, assumption 12). -/
def Obligations.LoadWordResults : Prop :=
  ∀ (s : State) (dst sr1 : Reg) (ofst6 : BitVec 6),
    Encodes (.ldr dst sr1 ofst6) 0xF000#16 0x5000#16 ∧
    ((effectiveAddress s sr1 ofst6).toNat < 0x8000 →
      ∃ t, exec (.ldr dst sr1 ofst6) s = .next t ∧ LoadEffect s t dst (freeRead s (effectiveAddress s sr1 ofst6))) ∧
    (0x8000 ≤ (effectiveAddress s sr1 ofst6).toNat → s.periph = .refuse →
      exec (.ldr dst sr1 ofst6) s = .refused (.peripheralAccess (effectiveAddress s sr1 ofst6)))

/-- R151: STR to free memory replaces the whole word at the effective address and no other byte; no register and no flag
is written; to a peripheral address, PERIPH decides, and with its default the model refuses (D14, assumption 12). That
every word of free memory is writable is the spec's own decision D30 (assumption 25). -/
def Obligations.StoreWordResults : Prop :=
  ∀ (s : State) (src sr1 : Reg) (ofst6 : BitVec 6),
    Encodes (.str src sr1 ofst6) 0xF000#16 0x4000#16 ∧
    ((effectiveAddress s sr1 ofst6).toNat < 0x8000 →
      ∃ t, exec (.str src sr1 ofst6) s = .next t ∧ StoresWord s t (effectiveAddress s sr1 ofst6) (s.reg src) ∧
        (∀ r, t.reg r = s.reg r) ∧ t.cc = s.cc ∧ t.pc = s.pc + 2#16 ∧ KeepsSystem s t ∧ t.periph = s.periph) ∧
    (0x8000 ≤ (effectiveAddress s sr1 ofst6).toNat → s.periph = .refuse →
      exec (.str src sr1 ofst6) s = .refused (.peripheralAccess (effectiveAddress s sr1 ofst6)))

/-- R170: SWP exchanges DST and the word at the effective address. With dst = sr1 the address and the stored value are of
the old register, the spec's own decision D3 (assumption 3); free memory is plain read-write memory by D30 (assumption
25), and a peripheral address is refused by the default of PERIPH (D14, assumption 12). -/
def Obligations.SwapResults : Prop :=
  ∀ (s : State) (dst sr1 : Reg) (ofst6 : BitVec 6),
    ((effectiveAddress s sr1 ofst6).toNat < 0x8000 →
      ∃ t, exec (.swp dst sr1 ofst6) s = .next t ∧ StoresWord s t (effectiveAddress s sr1 ofst6) (s.reg dst) ∧
        t.reg dst = freeRead s (effectiveAddress s sr1 ofst6) ∧ KeepsRegsBut dst s t ∧ t.cc = s.cc ∧
        t.pc = s.pc + 2#16 ∧ KeepsSystem s t ∧ t.periph = s.periph) ∧
    (0x8000 ≤ (effectiveAddress s sr1 ofst6).toNat → s.periph = .refuse →
      exec (.swp dst sr1 ofst6) s = .refused (.peripheralAccess (effectiveAddress s sr1 ofst6)))

/-- R55, R56, R58 with a device as PERIPH (assumptions 12 and 13, the model's form of the parameter): LDR, STR and SWP of
a peripheral address complete; a load gives the device's value, only the device's own state changes beside DST and PC. With
dst = sr1 the old register counts (D3, assumption 3). -/
def Obligations.DeviceAccessesComplete : Prop :=
  ∀ (s : State) (r sr1 : Reg) (ofst6 : BitVec 6) (st : Nat) (ea : Word), ea = effectiveAddress s sr1 ofst6 →
    0x8000 ≤ ea.toNat → s.periph = .device st →
    (∃ t, exec (.ldr r sr1 ofst6) s = .next t ∧ t.reg r = Config.periphReadValue st ea ∧
      t.periph = .device (Config.periphAfterRead st ea) ∧
      KeepsRegsBut r s t ∧ t.cc = s.cc ∧ t.pc = s.pc + 2#16 ∧ KeepsSpaces s t ∧ KeepsSystem s t) ∧
    (∃ t, exec (.str r sr1 ofst6) s = .next t ∧ t.periph = .device (Config.periphAfterWrite st ea (s.reg r)) ∧
      (∀ q, t.reg q = s.reg q) ∧ t.cc = s.cc ∧ t.pc = s.pc + 2#16 ∧ KeepsSpaces s t ∧ KeepsSystem s t) ∧
    (∃ t, exec (.swp r sr1 ofst6) s = .next t ∧ t.reg r = Config.periphReadValue st ea ∧
      t.periph = .device (Config.periphAfterWrite (Config.periphAfterRead st ea) ea (s.reg r)) ∧
      KeepsRegsBut r s t ∧ t.cc = s.cc ∧ t.pc = s.pc + 2#16 ∧ KeepsSpaces s t ∧ KeepsSystem s t)

/-- R160: BRC in every state; a match is both bits set, the spec's own decision D9 (assumption 8); the target wraps (D10,
assumption 9). Only PC changes. -/
def Obligations.BranchResults : Prop :=
  ∀ (s : State) (bn bz bp bc : Bool) (imm8 : BitVec 8), ∃ pc : Word,
    exec (.brc bn bz bp bc imm8) s = .next { s with pc := pc } ∧
    (BranchCondition bn bz bp bc s.cc → (pc.toNat : Int) = (s.pc.toNat + 2 + 2 * imm8.toInt) % 65536) ∧
    (¬ BranchCondition bn bz bp bc s.cc → (pc.toNat : Int) = (s.pc.toNat + 2) % 65536)

/-- R162: JPR with r = 0 jumps to SR1 plus the doubled offset modulo 2^16, floored to a word; only PC changes. -/
def Obligations.JumpResults : Prop :=
  ∀ (s : State) (sr1 : Reg) (imm5 : BitVec 5), Encodes (.jpr sr1 imm5) 0xFE20#16 0x6000#16 ∧
    ∃ pc : Word, exec (.jpr sr1 imm5) s = .next { s with pc := pc } ∧
      (pc.toNat : Int) = ((s.reg sr1).toNat + 2 * imm5.toInt) % 65536 / 2 * 2

/-- R163: JPR with r = 1 loads PC and CC from their shadows and clears IL, whatever its ignored fields hold and whether IL
is 1 or 0; nothing else changes. That the bits 11:9 of its word are not ignored is decision D29 (assumption 11). -/
def Obligations.InterruptReturnResults : Prop :=
  ∀ (s : State) (sr1 : Reg) (imm5 : BitVec 5),
    exec (.jprReturn sr1 imm5) s = .next { s with pc := s.pcsh, cc := s.ccsh, il := false }

/-- R165: JLR jumps like JPR and links pc + 2. With dst = sr1 the target is of the old register, the spec's own decision
D3 (assumption 3). -/
def Obligations.JumpAndLinkResults : Prop :=
  ∀ (s : State) (dst sr1 : Reg) (imm5 : BitVec 5), ∃ t, exec (.jlr dst sr1 imm5) s = .next t ∧
    t.reg dst = s.pc + 2#16 ∧ KeepsRegsBut dst s t ∧
    (t.pc.toNat : Int) = ((s.reg sr1).toNat + 2 * imm5.toInt) % 65536 / 2 * 2 ∧
    t.cc = s.cc ∧ KeepsSpaces s t ∧ KeepsSystem s t ∧ t.periph = s.periph

/-- R180: NOP is the single word 0x0000, every other word of opcode 0000 is reserved, and NOP advances PC and changes
nothing else. -/
def Obligations.NopResults : Prop :=
  encode .nop = 0x0000#16 ∧ decode 0x0000#16 = .ok .nop ∧
    (∀ w : Word, w.toNat < 0x1000 → w ≠ 0x0000#16 → ∃ r, decode w = .error (.reserved r)) ∧
    ∀ s : State, exec .nop s = .next { s with pc := s.pc + 2#16 }

/-- R181, R182: HLT sets HL, keeps PC (the spec's own decision D12, assumption 10) and everything else, and from then on
the machine has no step. -/
def Obligations.HaltResults : Prop :=
  ∀ s : State, ∃ t, exec .hlt s = .next t ∧ t = { s with hl := true } ∧ step t = .fault .halted

/-! ### The machine as a whole -/

/-- The new PC of every instruction that answers a next state, and of interrupt entry, by the table of R23. BRC's condition
is of the spec's own decision D9 (assumption 8), HLT's kept PC of D12 (assumption 10), the wrap of D10 (assumption 9). -/
def Obligations.ProgramCounterTable : Prop :=
  (∀ (i : Instr) (s t : State), exec i s = .next t → newPc i s t.pc) ∧
    ∀ s : State, (interruptEntry s).pc = s.params.intVector

/-- R26, the writing of CC: an updating instruction leaves the sign flags of the value it wrote to its destination, JPR
with r = 1 leaves CCsh, no other instruction writes CC, interrupt entry copies it to CCsh (R206, assumption 16). Flags of
the stored result are the spec's decision D4 (assumption 4). -/
def Obligations.ConditionCodeWriters : Prop :=
  (∀ (i : Instr) (s t : State), exec i s = .next t →
    (updatesCc i = true → ∀ d, destination i = some d → SignFlags (t.reg d) t.cc) ∧
    (isReturn i = true → t.cc = s.ccsh) ∧
    (updatesCc i = false → isReturn i = false → t.cc = s.cc)) ∧
    ∀ s : State, (interruptEntry s).cc = s.cc ∧ (interruptEntry s).ccsh = s.cc

/-- R31, R32: a step writes the shadows only by interrupt entry, with the address of the instruction that would have
executed next and with CC; no instruction but JPR with r = 1 reads them. That the "special scenarios" that save into them
are interrupt entry alone is the spec's reading of U18 (assumption 26), the entry itself derived in R206 (assumption 16). -/
def Obligations.ShadowsWrittenOnlyByEntry : Prop :=
  (∀ s t : State, step s = .next t →
    (t.pcsh = s.pcsh ∧ t.ccsh = s.ccsh) ∨ (t = interruptEntry (passBoundary s) ∧ t.pcsh = s.pc ∧ t.ccsh = s.cc)) ∧
  (∀ (i : Instr) (s t : State) (p : Word) (c : Cc), isReturn i = false → exec i s = .next t →
    exec i { s with pcsh := p, ccsh := c } = .next { t with pcsh := p, ccsh := c }) ∧
  ∀ (s : State) (sr1 : Reg) (imm5 : BitVec 5), ∃ t, exec (.jprReturn sr1 imm5) s = .next t ∧ t.pc = s.pcsh ∧
    t.cc = s.ccsh ∧ t.pcsh = s.pcsh ∧ t.ccsh = s.ccsh ∧ (∀ r, t.reg r = s.reg r) ∧ KeepsSpaces s t

/-- R34: HL is set by HLT alone, cleared by no instruction and by a hardware reset, read by no instruction; while it is 1
nothing is executed and no interrupt accepted. The fault `halted` is the model's form of having no step (assumption 10), and
the first clause is about `exec`, which does not look at HL (assumption 30). -/
def Obligations.HaltLatchRule : Prop :=
  (∀ (i : Instr) (s t : State) (h : Bool), exec i s = .next t →
    t.hl = (s.hl || isHalt i) ∧ exec i { s with hl := h } = .next { t with hl := h || isHalt i }) ∧
  (∀ (s : State) (l : Launch), (hardwareReset s l).hl = false) ∧
  ∀ s : State, s.hl = true → step s = .fault .halted

/-- R33: IL is set by interrupt entry alone and cleared by JPR with r = 1 alone. That entry sets it is derived in the spec
from the latch's description (assumption 16). -/
def Obligations.InterruptLatchRule : Prop :=
  (∀ (i : Instr) (s t : State), exec i s = .next t → t.il = (s.il && !isReturn i)) ∧
  ∀ s t : State, step s = .next t → t.il = true → s.il = true ∨ t = interruptEntry (passBoundary s)

/-- R20, the registers written: no instruction changes a general register other than its destination, and interrupt entry
changes none (R21, R206, assumption 16). -/
def Obligations.RegistersWritten : Prop :=
  (∀ (i : Instr) (s t : State) (r : Reg), exec i s = .next t → destination i ≠ some r → t.reg r = s.reg r) ∧
    ∀ (s : State) (r : Reg), (interruptEntry s).reg r = s.reg r

/-- R53, R70: only STR and SWP write the data space, and they only the word at their effective address. That reading
free memory has no side effect is the spec's own decision D30 (assumption 25). -/
def Obligations.DataSpaceWriters : Prop :=
  ∀ (i : Instr) (s t : State), exec i s = .next t →
    (stores i = false → ∀ k, dataByte t k = dataByte s k) ∧
    (∀ r sr1 ofst6, i = .str r sr1 ofst6 ∨ i = .swp r sr1 ofst6 →
      ∀ k, k ≠ (effectiveAddress s sr1 ofst6).toNat → k ≠ (effectiveAddress s sr1 ofst6).toNat + 1 →
        dataByte t k = dataByte s k)

/-- R51, R68: no step changes the program space, which the spec takes as constant by its own decision D16 (assumption
21); nor the storage space, the parameters or the draw (assumption 23). -/
def Obligations.ProgramSpaceConstant : Prop :=
  ∀ s t : State, step s = .next t →
    (∀ k, progByte t k = progByte s k) ∧ t.prog = s.prog ∧ t.storage = s.storage ∧ t.params = s.params ∧ t.draw = s.draw

/-- R45: no instruction reads or writes the storage space, and it survives reset. -/
def Obligations.StorageUnreachable : Prop :=
  (∀ (s t : State) (m : Memory), step s = .next t →
    t.storage = s.storage ∧ step { s with storage := m } = .next { t with storage := m }) ∧
  ∀ (s : State) (l : Launch), (hardwareReset s l).storage = s.storage

/-- R61: bit 0 of an address selects nothing, in a data access and in a fetch; jump targets are even and a branch keeps
the parity of PC. For the fetch that is the spec's own decision D11 (assumption 9). -/
def Obligations.AddressBitZeroIgnored : Prop :=
  (∀ (s : State) (a b v : Word), a.toNat / 2 = b.toNat / 2 →
    memRead s a = memRead s b ∧ memWrite s a v = memWrite s b v ∧ progRead s a = progRead s b) ∧
  (∀ (s : State) (sr1 : Reg) (imm5 : BitVec 5), (jumpTarget s sr1 imm5).toNat % 2 = 0) ∧
  ∀ (s : State) (imm8 : BitVec 8), (branchTarget s imm8).toNat % 2 = s.pc.toNat % 2

/-- R61, R166: the targets of JPR (r = 0) and JLR are even, BRC moves PC by an even displacement and so keeps its parity,
JPR with r = 1 copies PCsh unchanged, odd or even, and none of them stops. -/
def Obligations.JumpTargetsEvenBranchKeepsParity : Prop :=
  ∀ (s : State) (dst sr1 : Reg) (imm5 : BitVec 5) (bn bz bp bc : Bool) (imm8 : BitVec 8),
    (∃ t, exec (.jpr sr1 imm5) s = .next t ∧ t.pc.toNat % 2 = 0) ∧
    (∃ t, exec (.jlr dst sr1 imm5) s = .next t ∧ t.pc.toNat % 2 = 0) ∧
    (∃ t, exec (.brc bn bz bp bc imm8) s = .next t ∧ t.pc.toNat % 2 = s.pc.toNat % 2) ∧
    (∃ t, exec (.jprReturn sr1 imm5) s = .next t ∧ t.pc = s.pcsh)

/-- R54, R152: the effective address is the base plus -64 to +62 bytes, modulo 2^16 (the spec's own decision D10,
assumption 9), floored to a word. -/
def Obligations.EffectiveAddressComputed : Prop :=
  ∀ (s : State) (sr1 : Reg) (ofst6 : BitVec 6),
    ((effectiveAddress s sr1 ofst6).toNat : Int) = ((s.reg sr1).toNat + 2 * ofst6.toInt) % 65536 / 2 * 2 ∧
    -64 ≤ 2 * ofst6.toInt ∧ 2 * ofst6.toInt ≤ 62

/-- R217: when the machine is not halted, no request is accepted at this boundary, and the word at PC decodes to `i` under
the machine's RESERVED_POLICY (a reserved word too, under `ignore_bits`, assumption 11), the step is the meaning of `i`,
run after the boundary has used up the environment's bit and let the peripherals change (assumptions 13 and 14). -/
def Obligations.StepRunsDecodedInstruction : Prop :=
  ∀ (s : State) (i : Instr), s.hl = false →
    (irqHead s.irq = false ∨ (s.il = true ∧ s.params.intNesting = false)) →
    decodeUnder s.params.reservedPolicy (progRead s s.pc) = .ok i →
    step s = exec i { s with irq := irqRest s.irq, periph := tickPeriph s.periph }

/-- R204, R206: a request is accepted in a machine that is not halted and is not in a routine or may nest (decision D18),
and entry saves PC and CC, sets IL, goes to INT_VECTOR and changes no other register, flag or memory (decision D19,
assumption 16). The boundary itself uses up the environment's bit and lets the peripherals change, as at every boundary of
the model (assumptions 14 and 13). -/
def Obligations.InterruptAccepted : Prop :=
  ∀ s : State, s.hl = false → irqHead s.irq = true → (s.il = false ∨ s.params.intNesting = true) →
    step s = .next { s with
      pcsh := s.pc
      ccsh := s.cc
      il := true
      pc := s.params.intVector
      irq := irqRest s.irq
      periph := tickPeriph s.periph }

/-- R208: JPR with r = 1, at any point of a routine that left the shadows as entry wrote them, gives back the PC and CC of
the interrupted program, clears IL, keeps whatever else the routine left, and a next request can be accepted. -/
def Obligations.ReturnRestoresWhatEntrySaved : Prop :=
  ∀ (s r : State) (sr1 : Reg) (imm5 : BitVec 5), r.pcsh = (interruptEntry s).pcsh → r.ccsh = (interruptEntry s).ccsh →
    ∃ t, exec (.jprReturn sr1 imm5) r = .next t ∧ t = { r with pc := s.pc, cc := s.cc, il := false } ∧
      acceptsInterrupt t = !r.hl

/-- R209: with INT_NESTING false (decision D18), a step inside a routine never writes the shadows, request or not, and
leaves IL set unless it is the return. That nothing but entry saves into the shadows is the reading of U18 (assumption
26). -/
def Obligations.ShadowsStableInsideRoutine : Prop :=
  ∀ s t : State, s.il = true → s.params.intNesting = false → step s = .next t →
    t.pcsh = s.pcsh ∧ t.ccsh = s.ccsh ∧
      (t.il = true ∨ ∃ sr1 imm5, fetch s = .ok (.jprReturn sr1 imm5) ∧ t.pc = s.pcsh ∧ t.cc = s.ccsh)

/-- R182: while HL = 1 the machine has no step, whatever word is at PC and whatever the environment requests; no
executed step ends with HL clear that began with it set, and a hardware reset clears it. The fault `halted` is the model's
form of having no step (assumption 10). -/
def Obligations.HaltedMachineHasNoStep : Prop :=
  ∀ s : State, s.hl = true →
    (∀ (q : Irq) (w : Word), step { loadProgWord s s.pc w with irq := q } = .fault .halted) ∧
    (∀ t, step s ≠ .next t) ∧ ∀ l : Launch, (hardwareReset s l).hl = false

/-- R96 under RESERVED_POLICY = `refuse` (decision D2, assumption 11): a reserved word at PC stops the model by name; under
`ignore_bits` no fetched word stops it so. -/
def Obligations.ReservedWordStops : Prop :=
  (∀ s : State, s.hl = false → (irqNow s && acceptsInterrupt s) = false → s.params.reservedPolicy = .refuse →
    Word.wellFormed (progRead s s.pc) = false → step s = .refused (.reservedEncoding (progRead s s.pc))) ∧
  ∀ s : State, s.params.reservedPolicy = .ignoreBits → ∀ w, step s ≠ .refused (.reservedEncoding w)

/-! ### Invariants -/

/-- Every step keeps the three memories in canonical form: the model's own invariant of its memory lists, which says of the
spec that MEM lists only free memory (R57) and PROG and storage only their 64 kilobytes. -/
def Obligations.StepKeepsMemoriesCanonical : Prop :=
  ∀ s t : State, Safety.memoriesWf s = true → step s = .next t → Safety.memoriesWf t = true

/-- The memories of the machine right after reset are canonical, and so they are after any launch whose lists are. -/
def Obligations.ResetMemoriesCanonical : Prop :=
  Safety.memoriesWf State.reset = true ∧
    ∀ l : Launch, Memory.wf 0x8000 l.mem = true → Memory.wf 0x10000 l.prog = true →
      Memory.wf 0x10000 l.storage = true → Safety.memoriesWf (State.launch l) = true

/-- R29: once CC and CCsh each have exactly one of n, z, p set, every step keeps it so; and any CC-updating instruction
brings CC there from any state. The flags are of the stored result (decision D4, assumption 4). -/
def Obligations.StepKeepsOneSignFlag : Prop :=
  (∀ s t : State, Safety.flagsSound s = true → step s = .next t → Safety.flagsSound t = true) ∧
    ∀ (i : Instr) (s t : State), updatesCc i = true → exec i s = .next t → Safety.oneSign t.cc = true

/-- R24: PC stays even once it is, with its shadow and the interrupt vector even (the vector is the open parameter
INT_VECTOR, assumption 15; the spec draws the rule from its decisions D10 and D11, assumption 9; entry is that of R206,
assumption 16). -/
def Obligations.StepKeepsPcAligned : Prop :=
  ∀ s t : State, Safety.pcAligned s = true → step s = .next t → Safety.pcAligned t = true

/-- R36, R37, R41, R42, R230, R231: every launch has PC = RESET_PC, an even address, IL = 0 and HL = 0, the spec's own
choices and derivation (assumptions 18 and 19), whatever the unspecified rest, so a first request is accepted at the first
boundary; a hardware reset is such a launch, with the machine's own parameters; RESET_PC of `State.reset` is the spec's
default 0x0000. -/
def Obligations.ResetState : Prop :=
  State.reset.pc = 0x0000#16 ∧
  (∀ l : Launch, (State.launch l).pc = l.params.resetPc ∧ (State.launch l).pc.toNat % 2 = 0 ∧
    (State.launch l).il = false ∧ (State.launch l).hl = false ∧
    ∀ q, ∃ t, step (State.launch { l with irq := .bit true q }) = .next t ∧ t.pcsh = l.params.resetPc ∧ t.il = true) ∧
  ∀ (s : State) (l : Launch), (hardwareReset s l).pc = s.params.resetPc ∧ (hardwareReset s l).pc.toNat % 2 = 0 ∧ (hardwareReset s l).il = false ∧
    (hardwareReset s l).hl = false ∧ (hardwareReset s l).params = s.params

/-! ### Idioms of the spec -/

/-- R103, Table B2, after `SUB Rt, Rx, Ry` (which computes Y - X): the unsigned and equality rows hold for every X and Y,
the signed rows where the true difference fits in 16 bits (conflict C8), and nzp is always taken. SUB's flags are the
spec's own decisions D4 and D5 (assumption 4), BRC's match its decision D9 (assumption 8). -/
def Obligations.ComparisonBranches : Prop :=
  ∀ (s : State) (rt rx ry : Reg), ∃ t, exec (.subReg rt rx ry) s = .next t ∧
    (branchTaken true false true true t.cc = true ↔ (s.reg rx).toNat < (s.reg ry).toNat) ∧
    (branchTaken true true true true t.cc = true ↔ (s.reg rx).toNat ≤ (s.reg ry).toNat) ∧
    (branchTaken false true false false t.cc = true ↔ s.reg rx = s.reg ry) ∧
    (branchTaken true false true false t.cc = true ↔ s.reg rx ≠ s.reg ry) ∧
    branchTaken true true true false t.cc = true ∧
    (-32768 ≤ (s.reg ry).toInt - (s.reg rx).toInt → (s.reg ry).toInt - (s.reg rx).toInt ≤ 32767 →
      (branchTaken true false false false t.cc = true ↔ (s.reg ry).toInt < (s.reg rx).toInt) ∧
      (branchTaken false false true false t.cc = true ↔ (s.reg rx).toInt < (s.reg ry).toInt) ∧
      (branchTaken true true false false t.cc = true ↔ (s.reg ry).toInt ≤ (s.reg rx).toInt) ∧
      (branchTaken false true true false t.cc = true ↔ (s.reg rx).toInt ≤ (s.reg ry).toInt))

/-- R57, R65: a load of free memory sees the program's own earlier store to the word, and a store leaves every other word
as it was (decisions D15 and D30, assumptions 24 and 25). -/
def Obligations.LoadSeesEarlierStore : Prop :=
  ∀ (s : State) (src dst sr1 : Reg) (ofst6 : BitVec 6), (effectiveAddress s sr1 ofst6).toNat < 0x8000 →
    ∃ t u, exec (.str src sr1 ofst6) s = .next t ∧ exec (.ldr dst sr1 ofst6) t = .next u ∧ u.reg dst = s.reg src ∧
      ∀ a : Word, a.toNat / 2 ≠ (effectiveAddress s sr1 ofst6).toNat / 2 → freeRead u a = freeRead s a

/-- R170: swapping twice gives back the register and the word (dst and the base differ, so that the second swap is of the
same word; free memory is plain memory by decision D30, assumption 25). -/
def Obligations.SwapTwiceRestores : Prop :=
  ∀ (s : State) (dst sr1 : Reg) (ofst6 : BitVec 6), dst ≠ sr1 → (effectiveAddress s sr1 ofst6).toNat < 0x8000 →
    ∃ t u, exec (.swp dst sr1 ofst6) s = .next t ∧ exec (.swp dst sr1 ofst6) t = .next u ∧
      (∀ r, u.reg r = s.reg r) ∧ (∀ k, dataByte u k = dataByte s k)

/-- R164: `JLR Rk, ...` to call and `JPR Rk, #0` to return comes back to the instruction after the JLR, when PC is even and
the called code kept Rk. The natural pairing is derived in the spec from R162 and R165. -/
def Obligations.CallAndReturn : Prop :=
  ∀ (s u : State) (k sr1 : Reg) (imm5 : BitVec 5), s.pc.toNat % 2 = 0 →
    ∃ t, exec (.jlr k sr1 imm5) s = .next t ∧
      (u.reg k = t.reg k → ∃ v, exec (.jpr k 0#5) u = .next v ∧ v = { u with pc := s.pc + 2#16 })

/-- What the model's own `withFetchWord` does (assumption 28): the very next step runs the instruction the placed word is
under the machine's RESERVED_POLICY, in a state that differs from the given one only in the program word at PC, HL, and
the boundary's bit and device tick. -/
def Obligations.PlacedWordRunsNext : Prop :=
  ∀ (s : State) (w : Nat) (i : Instr), decodeUnder s.params.reservedPolicy (BitVec.ofNat 16 w) = .ok i → w < 65536 →
    ∃ t, step (s.withFetchWord 16 w) = exec i t ∧
      t = { s with prog := t.prog, hl := false, irq := irqRest s.irq, periph := tickPeriph s.periph } ∧
      progRead t s.pc = BitVec.ofNat 16 w ∧
      ∀ k, k ≠ (floorWord s.pc).toNat → k ≠ (floorWord s.pc).toNat + 1 → progByte t k = progByte s k

/-- R81, R93 and the rows of R92, for every word: it decodes to an instruction exactly when it is the number that
instruction's fields make at the places of R81. The order of the bits is the spec's own decision D1 (assumption 2). -/
def Obligations.FieldsStandWhereTheFormatsPutThem : Prop :=
  ∀ (i : Instr) (w : Word), decode w = .ok i ↔ w.toNat = wordNumber i

/-- Where the invariants start: a launch with an even PCsh and vector has PC, PCsh and vector even, since RESET_PC is even
(R37, assumption 18); a launch with one sign flag in CC and in CCsh has sound flags. The spec leaves PCsh, CC, CCsh and
the vector open after reset (assumptions 15 and 17), so both premises are needed. -/
def Obligations.LaunchStartsTheInvariants : Prop :=
  ∀ l : Launch,
    (l.pcsh.toNat % 2 = 0 → l.params.intVector.toNat % 2 = 0 → Safety.pcAligned (State.launch l) = true) ∧
    (Safety.oneSign l.cc = true → Safety.oneSign l.ccsh = true → Safety.flagsSound (State.launch l) = true)

/-- The input IRQ of R203 in the model's form (decision D18, assumption 14): it has a bit at every boundary, without end,
which a step that answers a next state uses up, accepted or not; any bits whatever can stand at the first `n` boundaries
with nothing known of all the later ones, or none requested there; and a request is entered exactly when it is presented
and acceptable. -/
def Obligations.EveryBoundaryHasItsRequestBit : Prop :=
  (∀ s t : State, step s = .next t → t.irq = irqRest s.irq ∧
    ((requestAt s.irq 0 && acceptsInterrupt s) = true → t = interruptEntry (passBoundary s)) ∧
    ((requestAt s.irq 0 && acceptsInterrupt s) = false →
      ∃ i, fetch s = .ok i ∧ exec i (passBoundary s) = .next t)) ∧
  (∀ (f : Nat → Bool) (n env boundary : Nat), ∃ q, (∀ m, m < n → requestAt q m = f m) ∧
    ∀ m, requestAt q (n + m) = Config.irqBit env (boundary + m)) ∧
  ∀ (f : Nat → Bool) (n : Nat), ∃ q, (∀ m, m < n → requestAt q m = f m) ∧ ∀ m, requestAt q (n + m) = false
end

