-- ==== Sys2Proof/Laws/State.lean ====
section
/-! SUPPORT. One lemma per field per update of State, true by rfl, and the register file's read after write. -/

namespace Sys2Proof.Machine

/-! ### RESET_PC -/

/-- RESET_PC is twice its word index, so it is even (R37). -/
theorem resetPc_toNat (p : Params) : p.resetPc.toNat = 2 * p.resetWord.toNat := by
  have e : p.resetPc.toNat = (p.resetWord ++ 0#1).toNat := rfl
  rw [e, BitVec.toNat_append, Nat.shiftLeft_eq]
  simp [Nat.mul_comm]

/-! ### The input IRQ -/

@[simp] theorem irqHead_never : irqHead .never = false := rfl
@[simp] theorem irqHead_free (e k : Nat) : irqHead (.free e k) = Config.irqBit e k := rfl
@[simp] theorem irqHead_bit (b : Bool) (q : Irq) : irqHead (.bit b q) = b := rfl
@[simp] theorem irqRest_never : irqRest .never = .never := rfl
@[simp] theorem irqRest_free (e k : Nat) : irqRest (.free e k) = .free e (k + 1) := rfl
@[simp] theorem irqRest_bit (b : Bool) (q : Irq) : irqRest (.bit b q) = q := rfl

/-! ### setReg -/

@[simp] theorem State.setReg_pc (s : State) (r : Reg) (v : Word) : (s.setReg r v).pc = s.pc := rfl
@[simp] theorem State.setReg_cc (s : State) (r : Reg) (v : Word) : (s.setReg r v).cc = s.cc := rfl
@[simp] theorem State.setReg_pcsh (s : State) (r : Reg) (v : Word) : (s.setReg r v).pcsh = s.pcsh := rfl
@[simp] theorem State.setReg_ccsh (s : State) (r : Reg) (v : Word) : (s.setReg r v).ccsh = s.ccsh := rfl
@[simp] theorem State.setReg_il (s : State) (r : Reg) (v : Word) : (s.setReg r v).il = s.il := rfl
@[simp] theorem State.setReg_hl (s : State) (r : Reg) (v : Word) : (s.setReg r v).hl = s.hl := rfl
@[simp] theorem State.setReg_mem (s : State) (r : Reg) (v : Word) : (s.setReg r v).mem = s.mem := rfl
@[simp] theorem State.setReg_prog (s : State) (r : Reg) (v : Word) : (s.setReg r v).prog = s.prog := rfl
@[simp] theorem State.setReg_storage (s : State) (r : Reg) (v : Word) : (s.setReg r v).storage = s.storage := rfl
@[simp] theorem State.setReg_periph (s : State) (r : Reg) (v : Word) : (s.setReg r v).periph = s.periph := rfl
@[simp] theorem State.setReg_irq (s : State) (r : Reg) (v : Word) : (s.setReg r v).irq = s.irq := rfl
@[simp] theorem State.setReg_draw (s : State) (r : Reg) (v : Word) : (s.setReg r v).draw = s.draw := rfl
@[simp] theorem State.setReg_params (s : State) (r : Reg) (v : Word) : (s.setReg r v).params = s.params := rfl
@[simp] theorem State.setReg_dataByte (s : State) (r : Reg) (v : Word) (k : Nat) : dataByte (s.setReg r v) k = dataByte s k := rfl
@[simp] theorem State.setReg_progByte (s : State) (r : Reg) (v : Word) (k : Nat) : progByte (s.setReg r v) k = progByte s k := rfl

/-! ### setPc -/

@[simp] theorem State.setPc_pc (s : State) (t : Word) : (s.setPc t).pc = t := rfl
@[simp] theorem State.setPc_cc (s : State) (t : Word) : (s.setPc t).cc = s.cc := rfl
@[simp] theorem State.setPc_pcsh (s : State) (t : Word) : (s.setPc t).pcsh = s.pcsh := rfl
@[simp] theorem State.setPc_ccsh (s : State) (t : Word) : (s.setPc t).ccsh = s.ccsh := rfl
@[simp] theorem State.setPc_il (s : State) (t : Word) : (s.setPc t).il = s.il := rfl
@[simp] theorem State.setPc_hl (s : State) (t : Word) : (s.setPc t).hl = s.hl := rfl
@[simp] theorem State.setPc_mem (s : State) (t : Word) : (s.setPc t).mem = s.mem := rfl
@[simp] theorem State.setPc_prog (s : State) (t : Word) : (s.setPc t).prog = s.prog := rfl
@[simp] theorem State.setPc_storage (s : State) (t : Word) : (s.setPc t).storage = s.storage := rfl
@[simp] theorem State.setPc_periph (s : State) (t : Word) : (s.setPc t).periph = s.periph := rfl
@[simp] theorem State.setPc_irq (s : State) (t : Word) : (s.setPc t).irq = s.irq := rfl
@[simp] theorem State.setPc_draw (s : State) (t : Word) : (s.setPc t).draw = s.draw := rfl
@[simp] theorem State.setPc_params (s : State) (t : Word) : (s.setPc t).params = s.params := rfl
@[simp] theorem State.setPc_reg (s : State) (t : Word) (q : Reg) : (s.setPc t).reg q = s.reg q := rfl
@[simp] theorem State.setPc_dataByte (s : State) (t : Word) (k : Nat) : dataByte (s.setPc t) k = dataByte s k := rfl
@[simp] theorem State.setPc_progByte (s : State) (t : Word) (k : Nat) : progByte (s.setPc t) k = progByte s k := rfl

/-! ### setCc -/

@[simp] theorem State.setCc_pc (s : State) (v : Cc) : (s.setCc v).pc = s.pc := rfl
@[simp] theorem State.setCc_cc (s : State) (v : Cc) : (s.setCc v).cc = v := rfl
@[simp] theorem State.setCc_pcsh (s : State) (v : Cc) : (s.setCc v).pcsh = s.pcsh := rfl
@[simp] theorem State.setCc_ccsh (s : State) (v : Cc) : (s.setCc v).ccsh = s.ccsh := rfl
@[simp] theorem State.setCc_il (s : State) (v : Cc) : (s.setCc v).il = s.il := rfl
@[simp] theorem State.setCc_hl (s : State) (v : Cc) : (s.setCc v).hl = s.hl := rfl
@[simp] theorem State.setCc_mem (s : State) (v : Cc) : (s.setCc v).mem = s.mem := rfl
@[simp] theorem State.setCc_prog (s : State) (v : Cc) : (s.setCc v).prog = s.prog := rfl
@[simp] theorem State.setCc_storage (s : State) (v : Cc) : (s.setCc v).storage = s.storage := rfl
@[simp] theorem State.setCc_periph (s : State) (v : Cc) : (s.setCc v).periph = s.periph := rfl
@[simp] theorem State.setCc_irq (s : State) (v : Cc) : (s.setCc v).irq = s.irq := rfl
@[simp] theorem State.setCc_draw (s : State) (v : Cc) : (s.setCc v).draw = s.draw := rfl
@[simp] theorem State.setCc_params (s : State) (v : Cc) : (s.setCc v).params = s.params := rfl
@[simp] theorem State.setCc_reg (s : State) (v : Cc) (q : Reg) : (s.setCc v).reg q = s.reg q := rfl
@[simp] theorem State.setCc_dataByte (s : State) (v : Cc) (k : Nat) : dataByte (s.setCc v) k = dataByte s k := rfl
@[simp] theorem State.setCc_progByte (s : State) (v : Cc) (k : Nat) : progByte (s.setCc v) k = progByte s k := rfl

/-! ### advance -/

@[simp] theorem State.advance_pc (s : State) : (s.advance).pc = s.pc + 2#16 := rfl
@[simp] theorem State.advance_cc (s : State) : (s.advance).cc = s.cc := rfl
@[simp] theorem State.advance_pcsh (s : State) : (s.advance).pcsh = s.pcsh := rfl
@[simp] theorem State.advance_ccsh (s : State) : (s.advance).ccsh = s.ccsh := rfl
@[simp] theorem State.advance_il (s : State) : (s.advance).il = s.il := rfl
@[simp] theorem State.advance_hl (s : State) : (s.advance).hl = s.hl := rfl
@[simp] theorem State.advance_mem (s : State) : (s.advance).mem = s.mem := rfl
@[simp] theorem State.advance_prog (s : State) : (s.advance).prog = s.prog := rfl
@[simp] theorem State.advance_storage (s : State) : (s.advance).storage = s.storage := rfl
@[simp] theorem State.advance_periph (s : State) : (s.advance).periph = s.periph := rfl
@[simp] theorem State.advance_irq (s : State) : (s.advance).irq = s.irq := rfl
@[simp] theorem State.advance_draw (s : State) : (s.advance).draw = s.draw := rfl
@[simp] theorem State.advance_params (s : State) : (s.advance).params = s.params := rfl
@[simp] theorem State.advance_reg (s : State) (q : Reg) : (s.advance).reg q = s.reg q := rfl
@[simp] theorem State.advance_dataByte (s : State) (k : Nat) : dataByte (s.advance) k = dataByte s k := rfl
@[simp] theorem State.advance_progByte (s : State) (k : Nat) : progByte (s.advance) k = progByte s k := rfl

/-! ### freeWrite -/

@[simp] theorem freeWrite_pc (s : State) (a v : Word) : (freeWrite s a v).pc = s.pc := rfl
@[simp] theorem freeWrite_cc (s : State) (a v : Word) : (freeWrite s a v).cc = s.cc := rfl
@[simp] theorem freeWrite_pcsh (s : State) (a v : Word) : (freeWrite s a v).pcsh = s.pcsh := rfl
@[simp] theorem freeWrite_ccsh (s : State) (a v : Word) : (freeWrite s a v).ccsh = s.ccsh := rfl
@[simp] theorem freeWrite_il (s : State) (a v : Word) : (freeWrite s a v).il = s.il := rfl
@[simp] theorem freeWrite_hl (s : State) (a v : Word) : (freeWrite s a v).hl = s.hl := rfl
@[simp] theorem freeWrite_mem (s : State) (a v : Word) : (freeWrite s a v).mem = memInsertWord s.mem (floorWord a).toNat v := rfl
@[simp] theorem freeWrite_prog (s : State) (a v : Word) : (freeWrite s a v).prog = s.prog := rfl
@[simp] theorem freeWrite_storage (s : State) (a v : Word) : (freeWrite s a v).storage = s.storage := rfl
@[simp] theorem freeWrite_periph (s : State) (a v : Word) : (freeWrite s a v).periph = s.periph := rfl
@[simp] theorem freeWrite_irq (s : State) (a v : Word) : (freeWrite s a v).irq = s.irq := rfl
@[simp] theorem freeWrite_draw (s : State) (a v : Word) : (freeWrite s a v).draw = s.draw := rfl
@[simp] theorem freeWrite_params (s : State) (a v : Word) : (freeWrite s a v).params = s.params := rfl
@[simp] theorem freeWrite_reg (s : State) (a v : Word) (q : Reg) : (freeWrite s a v).reg q = s.reg q := rfl
@[simp] theorem freeWrite_progByte (s : State) (a v : Word) (k : Nat) : progByte (freeWrite s a v) k = progByte s k := rfl

/-! ### passBoundary -/

@[simp] theorem passBoundary_pc (s : State) : (passBoundary s).pc = s.pc := rfl
@[simp] theorem passBoundary_cc (s : State) : (passBoundary s).cc = s.cc := rfl
@[simp] theorem passBoundary_pcsh (s : State) : (passBoundary s).pcsh = s.pcsh := rfl
@[simp] theorem passBoundary_ccsh (s : State) : (passBoundary s).ccsh = s.ccsh := rfl
@[simp] theorem passBoundary_il (s : State) : (passBoundary s).il = s.il := rfl
@[simp] theorem passBoundary_hl (s : State) : (passBoundary s).hl = s.hl := rfl
@[simp] theorem passBoundary_mem (s : State) : (passBoundary s).mem = s.mem := rfl
@[simp] theorem passBoundary_prog (s : State) : (passBoundary s).prog = s.prog := rfl
@[simp] theorem passBoundary_storage (s : State) : (passBoundary s).storage = s.storage := rfl
@[simp] theorem passBoundary_periph (s : State) : (passBoundary s).periph = tickPeriph s.periph := rfl
@[simp] theorem passBoundary_irq (s : State) : (passBoundary s).irq = irqRest s.irq := rfl
@[simp] theorem passBoundary_draw (s : State) : (passBoundary s).draw = s.draw := rfl
@[simp] theorem passBoundary_params (s : State) : (passBoundary s).params = s.params := rfl
@[simp] theorem passBoundary_reg (s : State) (q : Reg) : (passBoundary s).reg q = s.reg q := rfl
@[simp] theorem passBoundary_dataByte (s : State) (k : Nat) : dataByte (passBoundary s) k = dataByte s k := rfl
@[simp] theorem passBoundary_progByte (s : State) (k : Nat) : progByte (passBoundary s) k = progByte s k := rfl

/-! ### interruptEntry -/

@[simp] theorem interruptEntry_pc (s : State) : (interruptEntry s).pc = s.params.intVector := rfl
@[simp] theorem interruptEntry_cc (s : State) : (interruptEntry s).cc = s.cc := rfl
@[simp] theorem interruptEntry_pcsh (s : State) : (interruptEntry s).pcsh = s.pc := rfl
@[simp] theorem interruptEntry_ccsh (s : State) : (interruptEntry s).ccsh = s.cc := rfl
@[simp] theorem interruptEntry_il (s : State) : (interruptEntry s).il = true := rfl
@[simp] theorem interruptEntry_hl (s : State) : (interruptEntry s).hl = s.hl := rfl
@[simp] theorem interruptEntry_mem (s : State) : (interruptEntry s).mem = s.mem := rfl
@[simp] theorem interruptEntry_prog (s : State) : (interruptEntry s).prog = s.prog := rfl
@[simp] theorem interruptEntry_storage (s : State) : (interruptEntry s).storage = s.storage := rfl
@[simp] theorem interruptEntry_periph (s : State) : (interruptEntry s).periph = s.periph := rfl
@[simp] theorem interruptEntry_irq (s : State) : (interruptEntry s).irq = s.irq := rfl
@[simp] theorem interruptEntry_draw (s : State) : (interruptEntry s).draw = s.draw := rfl
@[simp] theorem interruptEntry_params (s : State) : (interruptEntry s).params = s.params := rfl
@[simp] theorem interruptEntry_reg (s : State) (q : Reg) : (interruptEntry s).reg q = s.reg q := rfl
@[simp] theorem interruptEntry_dataByte (s : State) (k : Nat) : dataByte (interruptEntry s) k = dataByte s k := rfl
@[simp] theorem interruptEntry_progByte (s : State) (k : Nat) : progByte (interruptEntry s) k = progByte s k := rfl

/-! ### returnFromInterrupt -/

@[simp] theorem returnFromInterrupt_pc (s : State) : (returnFromInterrupt s).pc = s.pcsh := rfl
@[simp] theorem returnFromInterrupt_cc (s : State) : (returnFromInterrupt s).cc = s.ccsh := rfl
@[simp] theorem returnFromInterrupt_pcsh (s : State) : (returnFromInterrupt s).pcsh = s.pcsh := rfl
@[simp] theorem returnFromInterrupt_ccsh (s : State) : (returnFromInterrupt s).ccsh = s.ccsh := rfl
@[simp] theorem returnFromInterrupt_il (s : State) : (returnFromInterrupt s).il = false := rfl
@[simp] theorem returnFromInterrupt_hl (s : State) : (returnFromInterrupt s).hl = s.hl := rfl
@[simp] theorem returnFromInterrupt_mem (s : State) : (returnFromInterrupt s).mem = s.mem := rfl
@[simp] theorem returnFromInterrupt_prog (s : State) : (returnFromInterrupt s).prog = s.prog := rfl
@[simp] theorem returnFromInterrupt_storage (s : State) : (returnFromInterrupt s).storage = s.storage := rfl
@[simp] theorem returnFromInterrupt_periph (s : State) : (returnFromInterrupt s).periph = s.periph := rfl
@[simp] theorem returnFromInterrupt_irq (s : State) : (returnFromInterrupt s).irq = s.irq := rfl
@[simp] theorem returnFromInterrupt_draw (s : State) : (returnFromInterrupt s).draw = s.draw := rfl
@[simp] theorem returnFromInterrupt_params (s : State) : (returnFromInterrupt s).params = s.params := rfl
@[simp] theorem returnFromInterrupt_reg (s : State) (q : Reg) : (returnFromInterrupt s).reg q = s.reg q := rfl
@[simp] theorem returnFromInterrupt_dataByte (s : State) (k : Nat) : dataByte (returnFromInterrupt s) k = dataByte s k := rfl
@[simp] theorem returnFromInterrupt_progByte (s : State) (k : Nat) : progByte (returnFromInterrupt s) k = progByte s k := rfl

/-! ### loadProgWord -/

@[simp] theorem loadProgWord_pc (s : State) (a w : Word) : (loadProgWord s a w).pc = s.pc := rfl
@[simp] theorem loadProgWord_cc (s : State) (a w : Word) : (loadProgWord s a w).cc = s.cc := rfl
@[simp] theorem loadProgWord_pcsh (s : State) (a w : Word) : (loadProgWord s a w).pcsh = s.pcsh := rfl
@[simp] theorem loadProgWord_ccsh (s : State) (a w : Word) : (loadProgWord s a w).ccsh = s.ccsh := rfl
@[simp] theorem loadProgWord_il (s : State) (a w : Word) : (loadProgWord s a w).il = s.il := rfl
@[simp] theorem loadProgWord_hl (s : State) (a w : Word) : (loadProgWord s a w).hl = s.hl := rfl
@[simp] theorem loadProgWord_mem (s : State) (a w : Word) : (loadProgWord s a w).mem = s.mem := rfl
@[simp] theorem loadProgWord_prog (s : State) (a w : Word) : (loadProgWord s a w).prog = memInsertWord s.prog (floorWord a).toNat w := rfl
@[simp] theorem loadProgWord_storage (s : State) (a w : Word) : (loadProgWord s a w).storage = s.storage := rfl
@[simp] theorem loadProgWord_periph (s : State) (a w : Word) : (loadProgWord s a w).periph = s.periph := rfl
@[simp] theorem loadProgWord_irq (s : State) (a w : Word) : (loadProgWord s a w).irq = s.irq := rfl
@[simp] theorem loadProgWord_draw (s : State) (a w : Word) : (loadProgWord s a w).draw = s.draw := rfl
@[simp] theorem loadProgWord_params (s : State) (a w : Word) : (loadProgWord s a w).params = s.params := rfl
@[simp] theorem loadProgWord_reg (s : State) (a w : Word) (q : Reg) : (loadProgWord s a w).reg q = s.reg q := rfl
@[simp] theorem loadProgWord_dataByte (s : State) (a w : Word) (k : Nat) : dataByte (loadProgWord s a w) k = dataByte s k := rfl

/-! ### Registers -/

@[simp] theorem State.nextPc_eq (s : State) : s.nextPc = s.pc + 2#16 := rfl

/-- Reading a register after writing one (R20): the value written, or the old one. -/
theorem State.reg_setReg (s : State) (d r : Reg) (v : Word) :
    (s.setReg d v).reg r = if r = d then v else s.reg r := by
  unfold State.reg State.setReg
  by_cases h : r = d
  · subst h; simp
  · have : ¬ d.toNat = r.toNat := fun e => h (BitVec.eq_of_toNat_eq e.symm)
    simp [this, h]

@[simp] theorem State.reg_setReg_self (s : State) (d : Reg) (v : Word) : (s.setReg d v).reg d = v := by
  simp [State.reg_setReg]

theorem State.reg_setReg_other (s : State) {d r : Reg} (v : Word) (h : r ≠ d) :
    (s.setReg d v).reg r = s.reg r := by
  simp [State.reg_setReg, h]

/-! ### writeResult -/

/-- What a CC-updating instruction does with its result, field by field. -/
theorem writeResult_eq (s : State) (dst : Reg) (res : Word) (carry : Bool) :
    writeResult s dst res carry =
      { s with
        regs := (s.setReg dst res).regs
        cc := flagsOf res carry
        pc := s.pc + 2#16 } := rfl

/-- Reading a register after `writeResult`. -/
theorem reg_writeResult (s : State) (dst r : Reg) (res : Word) (carry : Bool) :
    (writeResult s dst res carry).reg r = if r = dst then res else s.reg r :=
  State.reg_setReg s dst r res

/-- No register can be told apart from outside the register file: equal reads give equal files. -/
theorem regs_ext {s t : State} (h : ∀ r, s.reg r = t.reg r) : s.regs = t.regs := by
  apply Vector.ext
  intro k hk
  have := h (BitVec.ofNat 3 k)
  have e : (BitVec.ofNat 3 k).toNat = k := by
    rw [BitVec.toNat_ofNat]; exact Nat.mod_eq_of_lt hk
  simpa [State.reg, e] using this

end Sys2Proof.Machine
end

