-- ==== Sys2Proof/Laws/Memory.lean ====
section
/-! SUPPORT. The laws of memory lists: read after write, the canonical form kept by every operation, equal reads give
equal lists; and what a word access does. -/

namespace Sys2Proof.Machine

/-- Reading a byte after writing one: the byte written, or the old one. -/
theorem memLookup_memInsert (m : Memory) (a b : Nat) (v : Byte) :
    memLookup (memInsert m a v) b = if b = a then some v else memLookup m b := by
  induction m with
  | nil => simp [memInsert, memLookup, eq_comm]
  | cons cell rest ih =>
    obtain ⟨k, w⟩ := cell
    simp only [memInsert]
    split
    · simp [memLookup, eq_comm]
    · split
      · rename_i hak
        by_cases h : b = a
        · simp [memLookup, h]
        · have h' : ¬ k = b := fun e => h (by omega)
          have h'' : ¬ a = b := fun e => h e.symm
          simp [memLookup, h, h', h'']
      · by_cases h : k = b
        · subst h
          have : ¬ k = a := fun e => by omega
          simp [memLookup, this]
        · simp [memLookup, ih, h]

/-- Writing one byte keeps the canonical form. -/
theorem wfFrom_memInsert (m : Memory) (lo hi a : Nat) (v : Byte) (hlo : lo ≤ a) (hhi : a < hi)
    (h : Memory.wfFrom lo hi m = true) : Memory.wfFrom lo hi (memInsert m a v) = true := by
  induction m generalizing lo with
  | nil => simp [memInsert, Memory.wfFrom, hlo, hhi]
  | cons cell rest ih =>
    obtain ⟨k, w⟩ := cell
    simp only [Memory.wfFrom, Bool.and_eq_true, decide_eq_true_eq] at h
    obtain ⟨⟨h1, h2⟩, h3⟩ := h
    simp only [memInsert]
    split
    · rename_i hak
      simp [Memory.wfFrom, hlo, hhi, h2, h3]
      omega
    · split
      · rename_i hak
        subst hak
        simp [Memory.wfFrom, hlo, hhi, h3]
      · have : k + 1 ≤ a := by omega
        simp [Memory.wfFrom, h1, h2, ih (k + 1) this h3]

/-- Writing one word keeps the canonical form. -/
theorem wf_memInsertWord (m : Memory) (size a : Nat) (v : Word) (h : a + 1 < size) (hm : Memory.wf size m = true) :
    Memory.wf size (memInsertWord m a v) = true :=
  wfFrom_memInsert _ _ _ _ _ (Nat.zero_le _) h
    (wfFrom_memInsert _ _ _ _ _ (Nat.zero_le _) (by omega) hm)

/-- The empty memory of reset is in canonical form. -/
theorem wf_nil (size : Nat) : Memory.wf size [] = true := rfl

/-- Below the first address of a canonical list nothing is listed. -/
theorem memLookup_below (m : Memory) (lo hi a : Nat) (h : Memory.wfFrom lo hi m = true) (ha : a < lo) :
    memLookup m a = none := by
  induction m generalizing lo with
  | nil => rfl
  | cons cell rest ih =>
    obtain ⟨k, w⟩ := cell
    simp only [Memory.wfFrom, Bool.and_eq_true, decide_eq_true_eq] at h
    have hk : ¬ k = a := by omega
    simp [memLookup, hk, ih (k + 1) h.2 (by omega)]

/-- Canonical lists that read alike everywhere are equal. -/
theorem memory_ext (m m' : Memory) (lo hi : Nat) (h : Memory.wfFrom lo hi m = true)
    (h' : Memory.wfFrom lo hi m' = true) (e : ∀ a, memLookup m a = memLookup m' a) : m = m' := by
  induction m generalizing m' lo with
  | nil =>
    cases m' with
    | nil => rfl
    | cons cell rest => obtain ⟨k, w⟩ := cell; simpa [memLookup] using e k
  | cons cell rest ih =>
    obtain ⟨k, w⟩ := cell
    cases m' with
    | nil => simpa [memLookup] using e k
    | cons cell' rest' =>
      obtain ⟨k', w'⟩ := cell'
      simp only [Memory.wfFrom, Bool.and_eq_true, decide_eq_true_eq] at h h'
      have hkk : k = k' := by
        rcases Nat.lt_trichotomy k k' with hlt | heq | hgt
        · have hne : ¬ k' = k := by omega
          simpa [memLookup, hne, memLookup_below rest' (k' + 1) hi k h'.2 (by omega)] using e k
        · exact heq
        · have hne : ¬ k = k' := by omega
          simpa [memLookup, hne, memLookup_below rest (k + 1) hi k' h.2 (by omega)] using e k'
      subst hkk
      have hw : w = w' := by simpa [memLookup] using e k
      subst hw
      have hrest : rest = rest' := by
        refine ih rest' (k + 1) h.2 h'.2 (fun a => ?_)
        by_cases hak : k = a
        · subst hak
          rw [memLookup_below rest (k + 1) hi k h.2 (by omega), memLookup_below rest' (k + 1) hi k h'.2 (by omega)]
        · simpa [memLookup, hak] using e a
      rw [hrest]

/-- Reading a byte after writing a word. -/
theorem memLookup_memInsertWord (m : Memory) (a b : Nat) (v : Word) :
    memLookup (memInsertWord m a v) b =
      if b = a then some (lowByte v) else if b = a + 1 then some (highByte v) else memLookup m b := by
  unfold memInsertWord
  rw [memLookup_memInsert, memLookup_memInsert]
  by_cases h1 : b = a
  · have h2 : ¬ b = a + 1 := by omega
    simp [h1]
  · simp [h1]

/-- The two cells of a word give it back. -/
@[simp] theorem joinBytes_lowByte_highByte (v : Word) : joinBytes (lowByte v) (highByte v) = v := by
  unfold joinBytes lowByte highByte
  ext k hk
  simp only [BitVec.getElem_append, BitVec.getElem_extractLsb']
  split
  · simp [BitVec.getLsbD_eq_getElem hk]
  · have : 8 + (k - 8) = k := by omega
    simp [this, BitVec.getLsbD_eq_getElem hk]

/-- Flooring an address to its word (R12): bit 0 dropped. -/
theorem floorWord_toNat (a : Word) : (floorWord a).toNat = a.toNat / 2 * 2 := by
  unfold floorWord
  have h : a &&& 0xFFFE#16 = (a >>> 1) <<< 1 := by
    have mask : ∀ k : Fin 16, (0xFFFE#16).getLsbD k.val = decide (k.val ≠ 0) := by decide
    apply BitVec.eq_of_getLsbD_eq
    intro k hk
    have mk : (0xFFFE#16).getLsbD k = decide (k ≠ 0) := mask ⟨k, hk⟩
    rw [BitVec.getLsbD_and, mk]
    cases k with
    | zero => simp
    | succ k =>
      have e : 1 + k = k + 1 := by omega
      simp [hk, e]
  rw [h]
  have := a.isLt
  simp [BitVec.toNat_shiftLeft, BitVec.toNat_ushiftRight, Nat.shiftRight_eq_div_pow, Nat.shiftLeft_eq]
  omega

/-- The word access of a floored address stays inside the address's half. -/
theorem floorWord_free (a : Word) (h : isFreeMemory a = true) : (floorWord a).toNat + 1 < 0x8000 := by
  have := floorWord_toNat a
  simp only [isFreeMemory, decide_eq_true_eq] at h
  omega

/-- Reading a byte of free memory after a word write. -/
theorem dataByte_freeWrite (s : State) (a v : Word) (k : Nat) :
    dataByte (freeWrite s a v) k =
      if k = (floorWord a).toNat then lowByte v
      else if k = (floorWord a).toNat + 1 then highByte v
      else dataByte s k := by
  unfold dataByte freeWrite
  simp only [memLookup_memInsertWord]
  split
  · rfl
  · split <;> rfl

/-- Reading the program word just loaded. -/
theorem progRead_loadProgWord (s : State) (a w : Word) : progRead (loadProgWord s a w) a = w := by
  unfold progRead progByte loadProgWord
  simp [memLookup_memInsertWord]

/-- What `memRead` can do (R55): a word of free memory and the same state, or a device's answer. -/
theorem memRead_cases {s t : State} {a v : Word} (h : memRead s a = some (v, t)) :
    (isFreeMemory a = true ∧ v = freeRead s a ∧ t = s) ∨
    (isFreeMemory a = false ∧ ∃ st, s.periph = .device st ∧ v = Config.periphReadValue st (floorWord a) ∧
      t = { s with periph := .device (Config.periphAfterRead st (floorWord a)) }) := by
  unfold memRead at h
  split at h
  · rename_i hf
    simp only [Option.some.injEq, Prod.mk.injEq] at h
    exact .inl ⟨hf, h.1.symm, h.2.symm⟩
  · rename_i hf
    split at h
    · cases h
    · rename_i st hst
      simp only [Option.some.injEq, Prod.mk.injEq] at h
      exact .inr ⟨by simpa using hf, st, hst, h.1.symm, h.2.symm⟩

/-- What `memWrite` can do (R56): a word of free memory replaced, or a device told. -/
theorem memWrite_cases {s t : State} {a v : Word} (h : memWrite s a v = some t) :
    (isFreeMemory a = true ∧ t = freeWrite s a v) ∨
    (isFreeMemory a = false ∧ ∃ st, s.periph = .device st ∧
      t = { s with periph := .device (Config.periphAfterWrite st (floorWord a) v) }) := by
  unfold memWrite at h
  split at h
  · rename_i hf
    simp only [Option.some.injEq] at h
    exact .inl ⟨hf, h.symm⟩
  · rename_i hf
    split at h
    · cases h
    · rename_i st hst
      simp only [Option.some.injEq] at h
      exact .inr ⟨by simpa using hf, st, hst, h.symm⟩

/-- A write keeps MEM canonical. -/
theorem memWrite_wf {s t : State} {a v : Word} (h : memWrite s a v = some t) (hm : Memory.wf 0x8000 s.mem = true) :
    Memory.wf 0x8000 t.mem = true := by
  rcases memWrite_cases h with ⟨hf, rfl⟩ | ⟨_, _, _, rfl⟩
  · exact wf_memInsertWord _ _ _ _ (floorWord_free a hf) hm
  · exact hm

/-- Loading a word keeps PROG canonical. -/
theorem loadProgWord_wf (s : State) (a w : Word) (h : Memory.wf 0x10000 s.prog = true) :
    Memory.wf 0x10000 (loadProgWord s a w).prog = true := by
  refine wf_memInsertWord _ _ _ _ ?_ h
  have := floorWord_toNat a
  have := a.isLt
  omega

end Sys2Proof.Machine
end

