-- ==== Sys2Proof/Laws/PerInstr.lean ====
section
/-! SUPPORT. Per-instruction lemmas about instructions as syntax: every instruction's word belongs to its own row of the
opcode map (spec/30_encoding.md R92). -/

namespace Sys2Proof.Laws

/-- The word of `i` is accepted by the row of the opcode map `i` belongs to. -/
def EncodedInRow.Statement (i : Instr) : Prop := i.row.accepts (encode i) = true

/-! ### The bits of each format row: a group's bits at the group's place (R81) -/

theorem formatRR_getLsbD (op : BitVec 4) (dst sr1 sr2 : Reg) (k : Nat) :
    (formatRR op dst sr1 sr2).getLsbD k = @BitVec.getLsbD (4 + 3 + 3 + 3 + 3) (op ++ dst ++ sr1 ++ 0b000#3 ++ sr2) k := rfl

theorem formatRI5_getLsbD (op : BitVec 4) (dst sr1 : Reg) (imm5 : BitVec 5) (k : Nat) :
    (formatRI5 op dst sr1 imm5).getLsbD k = @BitVec.getLsbD (4 + 3 + 3 + 1 + 5) (op ++ dst ++ sr1 ++ 0b1#1 ++ imm5) k := rfl

theorem formatRI4_getLsbD (op : BitVec 4) (dst sr1 : Reg) (imm4 : BitVec 4) (k : Nat) :
    (formatRI4 op dst sr1 imm4).getLsbD k = @BitVec.getLsbD (4 + 3 + 3 + 2 + 4) (op ++ dst ++ sr1 ++ 0b10#2 ++ imm4) k := rfl

theorem formatSRR_getLsbD (op : BitVec 4) (dst sr1 : Reg) (a : Bool) (sr2 : Reg) (k : Nat) :
    (formatSRR op dst sr1 a sr2).getLsbD k = @BitVec.getLsbD (4 + 3 + 3 + 1 + 1 + 1 + 3) (op ++ dst ++ sr1 ++ 0b0#1 ++ flagBit a ++ 0b0#1 ++ sr2) k := rfl

theorem formatSRI_getLsbD (op : BitVec 4) (dst sr1 : Reg) (a : Bool) (imm4 : BitVec 4) (k : Nat) :
    (formatSRI op dst sr1 a imm4).getLsbD k = @BitVec.getLsbD (4 + 3 + 3 + 1 + 1 + 4) (op ++ dst ++ sr1 ++ 0b1#1 ++ flagBit a ++ imm4) k := rfl

theorem formatLI_getLsbD (op : BitVec 4) (dst : Reg) (s : Bool) (imm8 : BitVec 8) (k : Nat) :
    (formatLI op dst s imm8).getLsbD k = @BitVec.getLsbD (4 + 3 + 1 + 8) (op ++ dst ++ flagBit s ++ imm8) k := rfl

theorem formatM_getLsbD (op : BitVec 4) (dst sr1 : Reg) (ofst6 : BitVec 6) (k : Nat) :
    (formatM op dst sr1 ofst6).getLsbD k = @BitVec.getLsbD (4 + 3 + 3 + 6) (op ++ dst ++ sr1 ++ ofst6) k := rfl

theorem formatB_getLsbD (op : BitVec 4) (bn bz bp bc : Bool) (imm8 : BitVec 8) (k : Nat) :
    (formatB op bn bz bp bc imm8).getLsbD k = @BitVec.getLsbD (4 + 1 + 1 + 1 + 1 + 8) (op ++ flagBit bn ++ flagBit bz ++ flagBit bp ++ flagBit bc ++ imm8) k := rfl

theorem formatJ_getLsbD (op : BitVec 4) (sr1 : Reg) (r : Bool) (imm5 : BitVec 5) (k : Nat) :
    (formatJ op sr1 r imm5).getLsbD k = @BitVec.getLsbD (4 + 3 + 3 + 1 + 5) (op ++ 0b000#3 ++ sr1 ++ flagBit r ++ imm5) k := rfl

theorem formatJL_getLsbD (op : BitVec 4) (dst sr1 : Reg) (imm5 : BitVec 5) (k : Nat) :
    (formatJL op dst sr1 imm5).getLsbD k = @BitVec.getLsbD (4 + 3 + 3 + 1 + 5) (op ++ dst ++ sr1 ++ 0b0#1 ++ imm5) k := rfl

/-! ### One lemma per instruction -/

theorem EncodedInRow.nop : EncodedInRow.Statement .nop := by
  exact beq_self_eq_true _

theorem EncodedInRow.swp (dst sr1 : Reg) (ofst6 : BitVec 6) : EncodedInRow.Statement (.swp dst sr1 ofst6) := by
  simp only [EncodedInRow.Statement, Row.accepts, Instr.row, encode, beq_iff_eq]
  apply BitVec.eq_of_getLsbD_eq
  intro k hk
  rw [BitVec.getLsbD_and, formatM_getLsbD]
  simp only [BitVec.getLsbD_append]
  interval_cases k <;> simp

theorem EncodedInRow.brc (bn bz bp bc : Bool) (imm8 : BitVec 8) : EncodedInRow.Statement (.brc bn bz bp bc imm8) := by
  simp only [EncodedInRow.Statement, Row.accepts, Instr.row, encode, beq_iff_eq]
  apply BitVec.eq_of_getLsbD_eq
  intro k hk
  rw [BitVec.getLsbD_and, formatB_getLsbD]
  simp only [BitVec.getLsbD_append]
  interval_cases k <;> simp

theorem EncodedInRow.hlt : EncodedInRow.Statement .hlt := by
  exact beq_self_eq_true _

theorem EncodedInRow.str (src sr1 : Reg) (ofst6 : BitVec 6) : EncodedInRow.Statement (.str src sr1 ofst6) := by
  simp only [EncodedInRow.Statement, Row.accepts, Instr.row, encode, beq_iff_eq]
  apply BitVec.eq_of_getLsbD_eq
  intro k hk
  rw [BitVec.getLsbD_and, formatM_getLsbD]
  simp only [BitVec.getLsbD_append]
  interval_cases k <;> simp

theorem EncodedInRow.ldr (dst sr1 : Reg) (ofst6 : BitVec 6) : EncodedInRow.Statement (.ldr dst sr1 ofst6) := by
  simp only [EncodedInRow.Statement, Row.accepts, Instr.row, encode, beq_iff_eq]
  apply BitVec.eq_of_getLsbD_eq
  intro k hk
  rw [BitVec.getLsbD_and, formatM_getLsbD]
  simp only [BitVec.getLsbD_append]
  interval_cases k <;> simp

theorem EncodedInRow.jpr (sr1 : Reg) (imm5 : BitVec 5) : EncodedInRow.Statement (.jpr sr1 imm5) := by
  simp only [EncodedInRow.Statement, Row.accepts, Instr.row, encode, beq_iff_eq]
  apply BitVec.eq_of_getLsbD_eq
  intro k hk
  rw [BitVec.getLsbD_and, formatJ_getLsbD]
  simp only [BitVec.getLsbD_append]
  interval_cases k <;> simp [flagBit]

theorem EncodedInRow.jprReturn (sr1 : Reg) (imm5 : BitVec 5) : EncodedInRow.Statement (.jprReturn sr1 imm5) := by
  simp only [EncodedInRow.Statement, Row.accepts, Instr.row, encode, beq_iff_eq]
  apply BitVec.eq_of_getLsbD_eq
  intro k hk
  rw [BitVec.getLsbD_and, formatJ_getLsbD]
  simp only [BitVec.getLsbD_append]
  interval_cases k <;> simp [flagBit]

theorem EncodedInRow.jlr (dst sr1 : Reg) (imm5 : BitVec 5) : EncodedInRow.Statement (.jlr dst sr1 imm5) := by
  simp only [EncodedInRow.Statement, Row.accepts, Instr.row, encode, beq_iff_eq]
  apply BitVec.eq_of_getLsbD_eq
  intro k hk
  rw [BitVec.getLsbD_and, formatJL_getLsbD]
  simp only [BitVec.getLsbD_append]
  interval_cases k <;> simp

theorem EncodedInRow.addReg (dst sr1 sr2 : Reg) : EncodedInRow.Statement (.addReg dst sr1 sr2) := by
  simp only [EncodedInRow.Statement, Row.accepts, Instr.row, encode, beq_iff_eq]
  apply BitVec.eq_of_getLsbD_eq
  intro k hk
  rw [BitVec.getLsbD_and, formatRR_getLsbD]
  simp only [BitVec.getLsbD_append]
  interval_cases k <;> simp

theorem EncodedInRow.addImm (dst sr1 : Reg) (imm5 : BitVec 5) : EncodedInRow.Statement (.addImm dst sr1 imm5) := by
  simp only [EncodedInRow.Statement, Row.accepts, Instr.row, encode, beq_iff_eq]
  apply BitVec.eq_of_getLsbD_eq
  intro k hk
  rw [BitVec.getLsbD_and, formatRI5_getLsbD]
  simp only [BitVec.getLsbD_append]
  interval_cases k <;> simp

theorem EncodedInRow.subReg (dst sr1 sr2 : Reg) : EncodedInRow.Statement (.subReg dst sr1 sr2) := by
  simp only [EncodedInRow.Statement, Row.accepts, Instr.row, encode, beq_iff_eq]
  apply BitVec.eq_of_getLsbD_eq
  intro k hk
  rw [BitVec.getLsbD_and, formatRR_getLsbD]
  simp only [BitVec.getLsbD_append]
  interval_cases k <;> simp

theorem EncodedInRow.subImm (dst sr1 : Reg) (imm5 : BitVec 5) : EncodedInRow.Statement (.subImm dst sr1 imm5) := by
  simp only [EncodedInRow.Statement, Row.accepts, Instr.row, encode, beq_iff_eq]
  apply BitVec.eq_of_getLsbD_eq
  intro k hk
  rw [BitVec.getLsbD_and, formatRI5_getLsbD]
  simp only [BitVec.getLsbD_append]
  interval_cases k <;> simp

theorem EncodedInRow.lbi (dst : Reg) (s : Bool) (imm8 : BitVec 8) : EncodedInRow.Statement (.lbi dst s imm8) := by
  simp only [EncodedInRow.Statement, Row.accepts, Instr.row, encode, beq_iff_eq]
  apply BitVec.eq_of_getLsbD_eq
  intro k hk
  rw [BitVec.getLsbD_and, formatLI_getLsbD]
  simp only [BitVec.getLsbD_append]
  interval_cases k <;> simp

theorem EncodedInRow.xorReg (dst sr1 sr2 : Reg) : EncodedInRow.Statement (.xorReg dst sr1 sr2) := by
  simp only [EncodedInRow.Statement, Row.accepts, Instr.row, encode, beq_iff_eq]
  apply BitVec.eq_of_getLsbD_eq
  intro k hk
  rw [BitVec.getLsbD_and, formatRR_getLsbD]
  simp only [BitVec.getLsbD_append]
  interval_cases k <;> simp

theorem EncodedInRow.xorImm (dst sr1 : Reg) (imm5 : BitVec 5) : EncodedInRow.Statement (.xorImm dst sr1 imm5) := by
  simp only [EncodedInRow.Statement, Row.accepts, Instr.row, encode, beq_iff_eq]
  apply BitVec.eq_of_getLsbD_eq
  intro k hk
  rw [BitVec.getLsbD_and, formatRI5_getLsbD]
  simp only [BitVec.getLsbD_append]
  interval_cases k <;> simp

theorem EncodedInRow.shlReg (dst sr1 sr2 : Reg) : EncodedInRow.Statement (.shlReg dst sr1 sr2) := by
  simp only [EncodedInRow.Statement, Row.accepts, Instr.row, encode, beq_iff_eq]
  apply BitVec.eq_of_getLsbD_eq
  intro k hk
  rw [BitVec.getLsbD_and, formatRR_getLsbD]
  simp only [BitVec.getLsbD_append]
  interval_cases k <;> simp

theorem EncodedInRow.shlImm (dst sr1 : Reg) (imm4 : BitVec 4) : EncodedInRow.Statement (.shlImm dst sr1 imm4) := by
  simp only [EncodedInRow.Statement, Row.accepts, Instr.row, encode, beq_iff_eq]
  apply BitVec.eq_of_getLsbD_eq
  intro k hk
  rw [BitVec.getLsbD_and, formatRI4_getLsbD]
  simp only [BitVec.getLsbD_append]
  interval_cases k <;> simp

theorem EncodedInRow.shrReg (dst sr1 : Reg) (a : Bool) (sr2 : Reg) : EncodedInRow.Statement (.shrReg dst sr1 a sr2) := by
  simp only [EncodedInRow.Statement, Row.accepts, Instr.row, encode, beq_iff_eq]
  apply BitVec.eq_of_getLsbD_eq
  intro k hk
  rw [BitVec.getLsbD_and, formatSRR_getLsbD]
  simp only [BitVec.getLsbD_append]
  interval_cases k <;> simp

theorem EncodedInRow.shrImm (dst sr1 : Reg) (a : Bool) (imm4 : BitVec 4) : EncodedInRow.Statement (.shrImm dst sr1 a imm4) := by
  simp only [EncodedInRow.Statement, Row.accepts, Instr.row, encode, beq_iff_eq]
  apply BitVec.eq_of_getLsbD_eq
  intro k hk
  rw [BitVec.getLsbD_and, formatSRI_getLsbD]
  simp only [BitVec.getLsbD_append]
  interval_cases k <;> simp

theorem EncodedInRow.orrReg (dst sr1 sr2 : Reg) : EncodedInRow.Statement (.orrReg dst sr1 sr2) := by
  simp only [EncodedInRow.Statement, Row.accepts, Instr.row, encode, beq_iff_eq]
  apply BitVec.eq_of_getLsbD_eq
  intro k hk
  rw [BitVec.getLsbD_and, formatRR_getLsbD]
  simp only [BitVec.getLsbD_append]
  interval_cases k <;> simp

theorem EncodedInRow.orrImm (dst sr1 : Reg) (imm5 : BitVec 5) : EncodedInRow.Statement (.orrImm dst sr1 imm5) := by
  simp only [EncodedInRow.Statement, Row.accepts, Instr.row, encode, beq_iff_eq]
  apply BitVec.eq_of_getLsbD_eq
  intro k hk
  rw [BitVec.getLsbD_and, formatRI5_getLsbD]
  simp only [BitVec.getLsbD_append]
  interval_cases k <;> simp

theorem EncodedInRow.andReg (dst sr1 sr2 : Reg) : EncodedInRow.Statement (.andReg dst sr1 sr2) := by
  simp only [EncodedInRow.Statement, Row.accepts, Instr.row, encode, beq_iff_eq]
  apply BitVec.eq_of_getLsbD_eq
  intro k hk
  rw [BitVec.getLsbD_and, formatRR_getLsbD]
  simp only [BitVec.getLsbD_append]
  interval_cases k <;> simp

theorem EncodedInRow.andImm (dst sr1 : Reg) (imm5 : BitVec 5) : EncodedInRow.Statement (.andImm dst sr1 imm5) := by
  simp only [EncodedInRow.Statement, Row.accepts, Instr.row, encode, beq_iff_eq]
  apply BitVec.eq_of_getLsbD_eq
  intro k hk
  rw [BitVec.getLsbD_and, formatRI5_getLsbD]
  simp only [BitVec.getLsbD_append]
  interval_cases k <;> simp

end Sys2Proof.Laws
end

