-- ==== Sys2Proof/Laws/Step.lean ====
section
/-! SUPPORT. What a step can do, said once; and that `withFetchWord` makes the very next step run the placed word. -/

namespace Sys2Proof.Machine

/-- A step that answers a next state is an interrupt entry or the fetched instruction (R217). -/
theorem step_cases {s t : State} (h : step s = .next t) :
    s.hl = false ∧
    ((irqNow s = true ∧ acceptsInterrupt s = true ∧ t = interruptEntry (passBoundary s)) ∨
     ((irqNow s && acceptsInterrupt s) = false ∧ ∃ i, fetch s = .ok i ∧ exec i (passBoundary s) = .next t)) := by
  unfold step at h
  split at h
  · cases h
  · rename_i hl
    refine ⟨by simpa using hl, ?_⟩
    split at h
    · rename_i ha
      simp only [Bool.and_eq_true] at ha
      simp only [Host.Outcome.next.injEq] at h
      exact .inl ⟨ha.1, ha.2, h.symm⟩
    · rename_i ha
      split at h
      · rename_i i hi
        exact .inr ⟨by simpa using ha, i, hi, h⟩
      · cases h

/-- The state `withFetchWord` gives fetches the placed word. -/
theorem progRead_withFetchWord (s : State) (n w : Nat) :
    progRead (s.withFetchWord n w) (s.withFetchWord n w).pc = BitVec.ofNat 16 (w % 2 ^ n) :=
  progRead_loadProgWord s s.pc _

/-- The next step of `withFetchWord`'s state runs the placed instruction, when the decoder knows it. -/
theorem step_withFetchWord (s : State) (n w : Nat) (i : Instr)
    (h : decodeUnder s.params.reservedPolicy (BitVec.ofNat 16 (w % 2 ^ n)) = .ok i) :
    step (s.withFetchWord n w) = exec i (passBoundary (s.withFetchWord n w)) := by
  have hf : fetch (s.withFetchWord n w) = .ok i := by
    unfold fetch
    rw [progRead_withFetchWord]
    exact h
  have hl : (s.withFetchWord n w).hl = false := rfl
  have hq : irqNow (s.withFetchWord n w) = false := rfl
  unfold step
  simp [hl, hq, hf]

end Sys2Proof.Machine
end

