-- ==== Sys2Proof/Tests/Slice0.lean ====
section
/-! SUPPORT. Tests of the model against the vectors of spec/95_test_vectors.md (Part 2), the ill-formed words of R95, and
a named witness for the hypotheses of every statement. Expected values are the spec's. -/

namespace Sys2Proof.Tests

open Machine Claims

/-! ### Helpers -/

/-- The memory cells of one word at an even address. -/
def cells (a : Nat) (v : Word) : Memory := [(a, lowByte v), (a + 1, highByte v)]

/-- A state at pc 0x0100 with every field a numeral: the registers, the cells of data memory, and INT_VECTOR 0x0040. -/
def st (regs : Vector Word 8) (mem : Memory) : State where
  regs := regs
  pc := 0x0100#16
  cc := ⟨false, false, true, false⟩
  pcsh := 0x0456#16
  ccsh := ⟨true, false, false, true⟩
  il := false
  hl := false
  mem := mem
  prog := []
  storage := []
  periph := .refuse
  irq := .never
  draw := 0
  params := ⟨0#15, 0x0040#16, false, .refuse⟩

/-- R1, R2, R3 as given, the others zero, no data cell listed. -/
def st3 (r1 r2 r3 : Word) : State := st #v[0x0000#16, r1, r2, r3, 0x0000#16, 0x0000#16, 0x0000#16, 0x0000#16] []

/-- The same with one word of data memory. -/
def stM (r1 r2 : Word) (a : Nat) (v : Word) : State := { st3 r1 r2 0x0000#16 with mem := cells a v }

/-- The state with one program word at its pc. -/
def at0100 (s : State) (w : Word) : State := { s with prog := cells 0x0100 w }

/-- Whether the outcome is a next state with the property. -/
def gives (o : Host.Outcome State Fault Refusal) (p : State → Bool) : Bool :=
  match o with
  | .next t => p t
  | _ => false

/-- Whether R1 holds the value, CC's n, z, p are as given, and pc is the next instruction's. -/
def result (v : Word) (n z p : Bool) (t : State) : Bool :=
  t.reg 1 == v && t.cc.n == n && t.cc.z == z && t.cc.p == p && t.pc == 0x0102#16

/-- The same with c, of ADD and SUB. -/
def resultC (v : Word) (n z p c : Bool) (t : State) : Bool := result v n z p t && t.cc.c == c

/-! ### Ill-formed words (R95), one for each literal bit group the check looks at -/

theorem test_illformed_nop : Word.wellFormed 0x0001#16 = false ∧ Word.wellFormed 0x0800#16 = false := by decide
theorem test_illformed_hlt : Word.wellFormed 0x3001#16 = false ∧ Word.wellFormed 0x3FFF#16 = false := by decide
theorem test_illformed_jpr : Word.wellFormed 0x62C0#16 = false ∧ Word.wellFormed 0x6220#16 = false := by decide
theorem test_illformed_jlr : Word.wellFormed 0x7EE0#16 = false ∧ Word.wellFormed 0x7FFF#16 = false := by decide
theorem test_illformed_add_sub : Word.wellFormed 0x8FDF#16 = false ∧ Word.wellFormed 0x9288#16 = false := by decide
theorem test_illformed_bitwise : Word.wellFormed 0xF288#16 = false ∧ Word.wellFormed 0xE290#16 = false ∧
    Word.wellFormed 0xB298#16 = false := by decide
theorem test_illformed_shl : Word.wellFormed 0xC2B1#16 = false ∧ Word.wellFormed 0xC288#16 = false := by decide
theorem test_illformed_shr : Word.wellFormed 0xD28B#16 = false ∧ Word.wellFormed 0xDFDF#16 = false := by decide

/-- The decoder rejects each class by its name. -/
theorem test_reserved_by_name :
    decode 0x0800#16 = .error (.reserved .nopBits) ∧ decode 0x3FFF#16 = .error (.reserved .hltBits) ∧
    decode 0x6E00#16 = .error (.reserved .jprDst) ∧ decode 0x7EE0#16 = .error (.reserved .jlrSelector) ∧
    decode 0x8FDF#16 = .error (.reserved .aluBits) ∧ decode 0xCFFF#16 = .error (.reserved .shlBits) ∧
    decode 0xDFDF#16 = .error (.reserved .shrBit3) ∧ decodeBytes [0x00#8] = .error .truncated := by decide

/-! ### Decoding: each constructor's word, from the spec's vectors and format rows -/

theorem test_decode_nop_hlt : decode 0x0000#16 = .ok .nop ∧ decode 0x3000#16 = .ok .hlt := by decide
theorem test_decode_swp : decode 0x1FFF#16 = .ok (.swp 7 7 0x3F) ∧ decode 0x1281#16 = .ok (.swp 1 2 1) := by decide
theorem test_decode_brc : decode 0x2FFF#16 = .ok (.brc true true true true 0xFF) ∧
    decode 0x2B05#16 = .ok (.brc true false true true 5) := by decide
theorem test_decode_str : decode 0x4A41#16 = .ok (.str 5 1 1) ∧ decode 0x4283#16 = .ok (.str 1 2 3) := by decide
theorem test_decode_ldr : decode 0x5FE0#16 = .ok (.ldr 7 7 0x20) ∧ decode 0x5283#16 = .ok (.ldr 1 2 3) := by decide
theorem test_decode_jpr : decode 0x61DF#16 = .ok (.jpr 7 0x1F) ∧ decode 0x60C1#16 = .ok (.jpr 3 1) := by decide
theorem test_decode_jpr_return : decode 0x61FF#16 = .ok (.jprReturn 7 0x1F) ∧
    decode 0x6020#16 = .ok (.jprReturn 0 0) := by decide
theorem test_decode_jlr : decode 0x7FDF#16 = .ok (.jlr 7 7 0x1F) ∧ decode 0x7EC2#16 = .ok (.jlr 7 3 2) := by decide
theorem test_decode_add : decode 0x8283#16 = .ok (.addReg 1 2 3) ∧ decode 0x8FFF#16 = .ok (.addImm 7 7 0x1F) := by
  decide
theorem test_decode_sub : decode 0x9283#16 = .ok (.subReg 1 2 3) ∧ decode 0x92AA#16 = .ok (.subImm 1 2 10) := by
  decide
theorem test_decode_lbi : decode 0xA9FF#16 = .ok (.lbi 4 true 0xFF) ∧ decode 0xA034#16 = .ok (.lbi 0 false 0x34) := by
  decide
theorem test_decode_xor : decode 0xB283#16 = .ok (.xorReg 1 2 3) ∧ decode 0xB2A5#16 = .ok (.xorImm 1 2 5) := by decide
theorem test_decode_shl : decode 0xC283#16 = .ok (.shlReg 1 2 3) ∧ decode 0xCFEF#16 = .ok (.shlImm 7 7 15) := by
  decide
theorem test_decode_shr_reg : decode 0xD283#16 = .ok (.shrReg 1 2 false 3) ∧
    decode 0xDFD7#16 = .ok (.shrReg 7 7 true 7) := by decide
theorem test_decode_shr_imm : decode 0xD2A4#16 = .ok (.shrImm 1 2 false 4) ∧
    decode 0xDFFF#16 = .ok (.shrImm 7 7 true 15) := by decide
theorem test_decode_orr : decode 0xE946#16 = .ok (.orrReg 4 5 6) ∧ decode 0xE961#16 = .ok (.orrImm 4 5 1) := by decide
theorem test_decode_and : decode 0xF283#16 = .ok (.andReg 1 2 3) ∧ decode 0xF2B0#16 = .ok (.andImm 1 2 0x10) := by
  decide

/-- The host's view of the decoder reads the same words, low byte first. -/
theorem test_decode_table_word : decodeTableWord 16 0x7EC2 = some (.jlr 7 3 2) ∧ decodeTableWord 16 0x7EE0 = none ∧
    decodeBytes [0xC2#8, 0x7E#8, 0x01#8] = .ok (.jlr 7 3 2, [0x01#8]) := by decide

/-! ### One instruction each: vectors 2.1 to 2.7 -/

theorem test_and_reg : gives (exec (.andReg 1 2 3) (st3 0x0000#16 0xF0F0#16 0x3C3C#16))
    (result 0x3030#16 false false true) = true := by decide
theorem test_and_imm : gives (exec (.andImm 1 2 0x10#5) (st3 0x0000#16 0x1234#16 0x0000#16))
    (result 0x1230#16 false false true) = true := by decide
theorem test_orr_reg : gives (exec (.orrReg 1 2 3) (st3 0xFFFF#16 0x0000#16 0x0000#16))
    (result 0x0000#16 false true false) = true := by decide
theorem test_orr_imm : gives (exec (.orrImm 1 2 0x10#5) (st3 0x0000#16 0x0005#16 0x0000#16))
    (result 0xFFF5#16 true false false) = true := by decide
theorem test_xor_reg : gives (exec (.xorReg 1 2 3) (st3 0x0000#16 0xFF00#16 0x0FF0#16))
    (result 0xF0F0#16 true false false) = true := by decide
theorem test_xor_imm : gives (exec (.xorImm 1 2 0x1F#5) (st3 0x0000#16 0x00FF#16 0x0000#16))
    (result 0xFF00#16 true false false) = true := by decide
theorem test_shl_reg : gives (exec (.shlReg 1 1 1) (st3 0x0003#16 0x0000#16 0x0000#16))
    (result 0x0018#16 false false true) = true := by decide
theorem test_shl_imm : gives (exec (.shlImm 1 2 8#4) (st3 0x0000#16 0x12AB#16 0x0000#16))
    (result 0xAB00#16 true false false) = true := by decide
theorem test_shr_reg_logical : gives (exec (.shrReg 1 2 false 3) (st3 0x0000#16 0x8000#16 0x0003#16))
    (result 0x1000#16 false false true) = true := by decide
theorem test_shr_reg_arithmetic : gives (exec (.shrReg 1 2 true 3) (st3 0x0000#16 0x8000#16 0x0003#16))
    (result 0xF000#16 true false false) = true := by decide
theorem test_shr_imm_logical : gives (exec (.shrImm 1 2 false 15#4) (st3 0x0000#16 0x8000#16 0x0000#16))
    (result 0x0001#16 false false true) = true := by decide
theorem test_shr_imm_arithmetic : gives (exec (.shrImm 1 2 true 4#4) (st3 0x0000#16 0xF00F#16 0x0000#16))
    (result 0xFF00#16 true false false) = true := by decide
theorem test_add_reg_carry : gives (exec (.addReg 1 2 3) (st3 0x0000#16 0x8000#16 0x8000#16))
    (resultC 0x0000#16 false true false true) = true := by decide
theorem test_add_reg_signed_overflow : gives (exec (.addReg 1 2 3) (st3 0x0000#16 0x7FFF#16 0x0001#16))
    (resultC 0x8000#16 true false false false) = true := by decide
theorem test_add_imm : gives (exec (.addImm 1 2 0x1F#5) (st3 0x0000#16 0x0005#16 0x0000#16))
    (resultC 0x0004#16 false false true true) = true := by decide
theorem test_sub_reg_borrow : gives (exec (.subReg 1 2 3) (st3 0x0000#16 0x0005#16 0x0003#16))
    (resultC 0xFFFE#16 true false false false) = true := by decide
theorem test_sub_reg_equal : gives (exec (.subReg 1 2 3) (st3 0x0000#16 0x1234#16 0x1234#16))
    (resultC 0x0000#16 false true false true) = true := by decide
theorem test_sub_imm_reverse : gives (exec (.subImm 1 2 10#5) (st3 0x0000#16 0x0003#16 0x0000#16))
    (resultC 0x0007#16 false false true true) = true := by decide
theorem test_sub_imm_not : gives (exec (.subImm 1 2 0x1F#5) (st3 0x0000#16 0x1234#16 0x0000#16))
    (resultC 0xEDCB#16 true false false true) = true := by decide
theorem test_lbi_signed : gives (exec (.lbi 1 true 0x80#8) (st3 0x1234#16 0x0000#16 0x0000#16))
    (result 0xFF80#16 true false false) = true := by decide
theorem test_lbi_shifted : gives (exec (.lbi 1 false 0xFF#8) (st3 0x00AB#16 0x0000#16 0x0000#16))
    (result 0xABFF#16 true false false) = true := by decide
theorem test_ldr_wraps : gives (exec (.ldr 1 2 1#6) (stM 0x0000#16 0xFFFE#16 0x0000 0x5A5A#16))
    (result 0x5A5A#16 false false true) = true := by decide
theorem test_ldr_odd_base : gives (exec (.ldr 1 2 0#6) (stM 0x0000#16 0x1001#16 0x1000 0x8000#16))
    (result 0x8000#16 false false true) = true := by decide
theorem test_str_last_word : gives (exec (.str 1 2 0#6) (stM 0x1111#16 0x7FFF#16 0x7FFE 0x2222#16))
    (fun t => t.mem == cells 0x7FFE 0x1111#16 && t.pc == 0x0102#16) = true := by decide
theorem test_str_peripheral_refused :
    exec (.str 1 2 0#6) (st3 0x00AA#16 0x8000#16 0x0000#16) = .refused (.peripheralAccess 0x8000#16) := rfl
theorem test_swp : gives (exec (.swp 1 2 1#6) (stM 0xAAAA#16 0x1000#16 0x1002 0x5555#16))
    (fun t => t.reg 1 == 0x5555#16 && t.mem == cells 0x1002 0xAAAA#16) = true := by decide
theorem test_swp_same_register : gives (exec (.swp 2 2 0#6) (stM 0x0000#16 0x1000#16 0x1000 0x0007#16))
    (fun t => t.reg 2 == 0x0007#16 && t.mem == cells 0x1000 0x1000#16) = true := by decide
theorem test_brc_backwards : exec (.brc false true false false 0xFD#8)
    { st3 0x0000#16 0x0000#16 0x0000#16 with cc := ⟨false, true, false, false⟩ } =
    .next { st3 0x0000#16 0x0000#16 0x0000#16 with cc := ⟨false, true, false, false⟩, pc := 0x00FC#16 } := rfl
theorem test_brc_carry_needs_a_sign : gives (exec (.brc false false false true 5#8)
    { st3 0x0000#16 0x0000#16 0x0000#16 with cc := ⟨false, false, true, true⟩ }) (fun t => t.pc == 0x0102#16) = true := by
  decide
theorem test_jpr_wraps_and_floors : gives (exec (.jpr 3 1#5) (st3 0x0000#16 0x0000#16 0xFFFF#16))
    (fun t => t.pc == 0x0000#16) = true := by decide
theorem test_jpr_return : exec (.jprReturn 5 7#5) { st3 0x0000#16 0x0000#16 0x0000#16 with il := true } =
    .next { st3 0x0000#16 0x0000#16 0x0000#16 with pc := 0x0456#16, cc := ⟨true, false, false, true⟩ } := rfl
theorem test_jlr_same_register : gives (exec (.jlr 3 3 0#5) (st3 0x0000#16 0x0000#16 0x0200#16))
    (fun t => t.reg 3 == 0x0102#16 && t.pc == 0x0200#16) = true := by decide
theorem test_nop_wraps : gives (exec .nop { st3 0x1234#16 0x0000#16 0x0000#16 with pc := 0xFFFE#16 })
    (fun t => t.pc == 0x0000#16 && t.reg 1 == 0x1234#16) = true := by decide
theorem test_hlt : exec .hlt (st3 0x1234#16 0x0000#16 0x0000#16) =
    .next { st3 0x1234#16 0x0000#16 0x0000#16 with hl := true } := rfl

/-! ### Steps: vectors 2.8 and the host's two questions -/

theorem test_interrupt_entry : step { st3 0x1234#16 0x0000#16 0x0000#16 with irq := .bit true .never } =
    .next { st3 0x1234#16 0x0000#16 0x0000#16 with
      pcsh := 0x0100#16, ccsh := ⟨false, false, true, false⟩, il := true, pc := 0x0040#16 } := rfl
theorem test_interrupt_not_nested :
    gives (step { at0100 (st3 0x0000#16 0x0002#16 0x0003#16) 0x8283#16 with irq := .bit true .never, il := true })
      (result 0x0005#16 false false true) = true := by decide
theorem test_placed_word_runs_after_reset :
    gives (step (State.reset.withFetchWord 16 0xA112)) (fun t => t.reg 0 == 0x0012#16 && t.pc == 0x0002#16) = true := by
  decide
theorem test_reset_memories : Safety.memoriesWf State.reset = true := by decide

/-! ### Witnesses: a state and operands that meet the hypotheses of each statement -/

/-- `decode w = .ok i`, and a word that is none. -/
theorem witness_DecodeIsTheOpcodeMap : (∃ i, decode 0xFFFF#16 = .ok i) ∧ (∃ r, decode 0x0001#16 = .error (.reserved r)) :=
  ⟨⟨_, rfl⟩, ⟨_, rfl⟩⟩
/-- A reserved ADD, JPR and SHL keep their operands; a defined word is its own correction. -/
theorem witness_IgnoreBitsDecodesByOpcode : decode 0x3000#16 = .ok .hlt ∧ Word.wellFormed 0x3000#16 = true ∧
    decodeUnder .ignoreBits 0x3001#16 = .ok .hlt ∧ decodeUnder .ignoreBits 0x829B#16 = .ok (.addReg 1 2 3) ∧
    decodeUnder .ignoreBits 0x6EC1#16 = .ok (.jpr 3 1) ∧ decodeUnder .ignoreBits 0xC2B8#16 = .ok (.shlImm 1 2 8) ∧
    literalBitsCorrected 0x829B#16 = 0x8283#16 := by decide
/-- Counts at the two sides of the boundary. -/
theorem witness_RegisterShiftResults : ((st3 0#16 0#16 0x000F#16).reg 3).toNat ≤ 15 ∧
    15 < ((st3 0#16 0#16 0x0010#16).reg 3).toNat := by decide
/-- Both variants of LBI, on the same state. -/
theorem witness_LoadByteResults : (∃ t, exec (.lbi 1 true 0xFF#8) (st3 0x00AB#16 0#16 0#16) = .next t) ∧
    ∃ t, exec (.lbi 1 false 0xFF#8) (st3 0x00AB#16 0#16 0#16) = .next t := ⟨⟨_, rfl⟩, ⟨_, rfl⟩⟩
/-- The last free word, and the first peripheral word with PERIPH refusing: of LoadWordResults, StoreWordResults,
SwapResults. -/
theorem witness_free_and_peripheral :
    (effectiveAddress (st3 0#16 0x7FFF#16 0#16) 2 0#6).toNat < 0x8000 ∧
    (effectiveAddress (st3 0#16 0x7FFF#16 0#16) 2 0#6).toNat = 0x7FFE ∧
    0x8000 ≤ (effectiveAddress (st3 0#16 0x8000#16 0#16) 2 0#6).toNat ∧ (st3 0#16 0x8000#16 0#16).periph = .refuse := by
  decide
/-- A device behind the first and the last peripheral word. -/
theorem witness_DeviceAccessesComplete :
    0x8000 ≤ (effectiveAddress { st3 0#16 0x8000#16 0#16 with periph := .device 3 } 2 0#6).toNat ∧
    0x8000 ≤ (effectiveAddress { st3 0#16 0xFFFF#16 0#16 with periph := .device 3 } 2 0#6).toNat ∧
    ({ st3 0#16 0x8000#16 0#16 with periph := .device 3 } : State).periph = .device 3 := by decide
/-- A condition that holds and one that does not. -/
theorem witness_BranchResults : BranchCondition false false true false ⟨false, false, true, false⟩ ∧
    ¬ BranchCondition true true false true ⟨false, false, true, true⟩ := by
  constructor <;> simp [BranchCondition]
/-- An instruction of each kind the whole-machine rules name answers a next state: updating, returning, neither; halting;
storing to the last free word; writing no register. -/
theorem witness_exec_answers_next : (∃ t, exec (.addReg 1 2 3) (st3 1#16 2#16 3#16) = .next t) ∧
    (∃ t, exec (.jprReturn 0 0) (st3 1#16 2#16 3#16) = .next t) ∧
    (∃ t, exec (.brc true true true false 5) (st3 1#16 2#16 3#16) = .next t) ∧
    (∃ t, exec .hlt (st3 1#16 2#16 3#16) = .next t) ∧
    (∃ t, exec (.str 1 2 0) (st3 1#16 0x7FFE#16 3#16) = .next t) ∧
    ∃ t, exec (.swp 1 2 0) (st3 1#16 0x7FFE#16 3#16) = .next t :=
  ⟨⟨_, rfl⟩, ⟨_, rfl⟩, ⟨_, rfl⟩, ⟨_, rfl⟩, ⟨_, rfl⟩, ⟨_, rfl⟩⟩
theorem witness_ProgramCounterTable : ∃ t, exec (.jpr 2 1) (st3 1#16 2#16 3#16) = .next t := ⟨_, rfl⟩
theorem witness_ConditionCodeWriters : (updatesCc (.addReg 1 2 3) = true ∧ destination (.addReg 1 2 3) = some 1) ∧
    isReturn (.jprReturn 0 0) = true ∧ (updatesCc (.ldr 1 2 0) = false ∧ isReturn (.ldr 1 2 0) = false) := by decide
/-- The shadows: a step that is entry and a step that is not, and an instruction that is not the return. -/
theorem witness_ShadowsWrittenOnlyByEntry :
    (∃ t, step { st3 1#16 2#16 3#16 with irq := .bit true .never } = .next t) ∧
    (∃ t, step (at0100 (st3 1#16 2#16 3#16) 0x8283#16) = .next t) ∧ isReturn (.addReg 1 2 3) = false :=
  ⟨⟨_, rfl⟩, ⟨_, rfl⟩, rfl⟩
theorem witness_HaltLatchRule : (∃ t, exec .hlt (st3 1#16 2#16 3#16) = .next t) ∧
    ({ st3 1#16 2#16 3#16 with hl := true } : State).hl = true := ⟨⟨_, rfl⟩, rfl⟩
/-- IL set after a step: by entry, and by an instruction inside a routine. -/
theorem witness_InterruptLatchRule :
    gives (step { st3 1#16 2#16 3#16 with irq := .bit true .never }) (·.il) = true ∧
    gives (step (at0100 { st3 1#16 2#16 3#16 with il := true } 0x0000#16)) (·.il) = true := by decide
theorem witness_RegistersWritten : (∃ t, exec (.addReg 1 2 3) (st3 1#16 2#16 3#16) = .next t) ∧
    destination (.addReg 1 2 3) ≠ some 2 ∧ destination (.str 1 2 3) ≠ some 1 := ⟨⟨_, rfl⟩, by decide, by decide⟩
/-- A load, and stores to the last free word with a byte outside it on each side. -/
theorem witness_DataSpaceWriters : stores (.ldr 1 2 0) = false ∧
    (∃ t, exec (.str 1 2 0) (st3 1#16 0x7FFE#16 3#16) = .next t) ∧
    0x7FFD ≠ (effectiveAddress (st3 1#16 0x7FFE#16 3#16) 2 0).toNat ∧
    0x8000 ≠ (effectiveAddress (st3 1#16 0x7FFE#16 3#16) 2 0).toNat + 1 := ⟨rfl, ⟨_, rfl⟩, by decide, by decide⟩
/-- A step that answers a next state, of ProgramSpaceConstant and StorageUnreachable. -/
theorem witness_step_answers_next : ∃ t, step (at0100 (st3 1#16 0x2000#16 3#16) 0x4280#16) = .next t := ⟨_, rfl⟩
theorem witness_AddressBitZeroIgnored : (0x1234#16).toNat / 2 = (0x1235#16).toNat / 2 ∧
    (0xFFFE#16).toNat / 2 = (0xFFFF#16).toNat / 2 := by decide
/-- A reserved word at pc under `ignore_bits`. -/
theorem witness_StepRunsDecodedInstruction_ignoreBits :
    decodeUnder .ignoreBits (progRead (at0100 (st3 1#16 2#16 3#16) 0x829B#16) 0x0100#16) = .ok (.addReg 1 2 3) ∧
    Word.wellFormed 0x829B#16 = false := by decide
/-- No request; and a request inside a routine that may not nest. -/
theorem witness_StepRunsDecodedInstruction :
    (at0100 (st3 1#16 2#16 3#16) 0x8283#16).hl = false ∧ irqHead (at0100 (st3 1#16 2#16 3#16) 0x8283#16).irq = false ∧
    decodeUnder .refuse (progRead (at0100 (st3 1#16 2#16 3#16) 0x8283#16) 0x0100#16) = .ok (.addReg 1 2 3) ∧
    (st3 1#16 2#16 3#16).params.reservedPolicy = .refuse ∧
    ({ st3 1#16 2#16 3#16 with il := true, irq := .bit true .never } : State).params.intNesting = false := by decide
/-- A request outside a routine; and one inside, with nesting allowed. -/
theorem witness_InterruptAccepted :
    (irqHead ({ st3 1#16 2#16 3#16 with irq := .bit true .never } : State).irq = true ∧
      ({ st3 1#16 2#16 3#16 with irq := .bit true .never } : State).il = false) ∧
    (({ st3 1#16 2#16 3#16 with irq := .bit true .never, il := true, params := ⟨0#15, 0x0040, true, .refuse⟩ } : State).params.intNesting
      = true ∧ (st3 1#16 2#16 3#16).hl = false) := by decide
/-- The state at the end of a routine that changed R1, CC and pc and left the shadows. -/
theorem witness_ReturnRestoresWhatEntrySaved :
    ((interruptEntry (st3 1#16 2#16 3#16)).setReg 1 9#16).pcsh = (interruptEntry (st3 1#16 2#16 3#16)).pcsh ∧
    ((interruptEntry (st3 1#16 2#16 3#16)).setReg 1 9#16).ccsh = (interruptEntry (st3 1#16 2#16 3#16)).ccsh := by decide
/-- Inside a routine, with a request that is not accepted: an instruction, and the return. -/
theorem witness_ShadowsStableInsideRoutine :
    (∃ t, step { at0100 (st3 1#16 2#16 3#16) 0x8283#16 with il := true, irq := .bit true .never } = .next t) ∧
    (∃ t, step { at0100 (st3 1#16 2#16 3#16) 0x6020#16 with il := true, irq := .bit true .never } = .next t) ∧
    (st3 1#16 2#16 3#16).params.intNesting = false := ⟨⟨_, rfl⟩, ⟨_, rfl⟩, rfl⟩
theorem witness_HaltedMachineHasNoStep : ({ st3 1#16 2#16 3#16 with hl := true } : State).hl = true := rfl
/-- A reserved word at pc under each RESERVED_POLICY. -/
theorem witness_ReservedWordStops :
    Word.wellFormed (progRead (at0100 (st3 1#16 2#16 3#16) 0x0001#16) 0x0100#16) = false ∧
    (at0100 (st3 1#16 2#16 3#16) 0x0001#16).params.reservedPolicy = .refuse ∧
    (irqNow (at0100 (st3 1#16 2#16 3#16) 0x0001#16) && acceptsInterrupt (at0100 (st3 1#16 2#16 3#16) 0x0001#16)) = false ∧
    ({ st3 1#16 2#16 3#16 with params := ⟨0#15, 0x0040, false, .ignoreBits⟩ } : State).params.reservedPolicy
      = .ignoreBits := by decide
/-- A storing step from a state with canonical memories. -/
theorem witness_StepKeepsMemoriesCanonical :
    Safety.memoriesWf (at0100 (stM 1#16 0x2000#16 0x2000 7#16) 0x4280#16) = true ∧
    ∃ t, step (at0100 (stM 1#16 0x2000#16 0x2000 7#16) 0x4280#16) = .next t := ⟨by decide, ⟨_, rfl⟩⟩
theorem witness_ResetMemoriesCanonical : Memory.wf 0x8000 (cells 0x7FFE 7#16) = true ∧
    Memory.wf 0x10000 (cells 0xFFFE 7#16) = true := by decide
theorem witness_StepKeepsOneSignFlag : Safety.flagsSound (at0100 (st3 1#16 2#16 3#16) 0x8283#16) = true ∧
    (∃ t, step (at0100 (st3 1#16 2#16 3#16) 0x8283#16) = .next t) ∧ updatesCc (.addReg 1 2 3) = true :=
  ⟨by decide, ⟨_, rfl⟩, rfl⟩
theorem witness_StepKeepsPcAligned : Safety.pcAligned (at0100 (st3 1#16 2#16 3#16) 0x60C1#16) = true ∧
    ∃ t, step (at0100 (st3 1#16 2#16 3#16) 0x60C1#16) = .next t := ⟨by decide, ⟨_, rfl⟩⟩
theorem witness_NopResults : (0x0FFF#16).toNat < 0x1000 ∧ (0x0FFF#16) ≠ 0x0000#16 := by decide
/-- A first request at the first boundary after a launch. -/
theorem witness_ResetState : gives (step (State.launch { Launch.default with irq := .bit true .never })) (·.il) = true := by decide
/-- The true difference at both ends of the 16-bit range. -/
theorem witness_ComparisonBranches :
    ((st3 0#16 0x0000#16 0x8000#16).reg 3).toInt - ((st3 0#16 0x0000#16 0x8000#16).reg 2).toInt = -32768 ∧
    ((st3 0#16 0x0000#16 0x7FFF#16).reg 3).toInt - ((st3 0#16 0x0000#16 0x7FFF#16).reg 2).toInt = 32767 := by decide
/-- The last free word, and a word beside it. -/
theorem witness_LoadSeesEarlierStore : (effectiveAddress (st3 1#16 0x7FFF#16 3#16) 2 0).toNat < 0x8000 ∧
    (0x7FFC#16).toNat / 2 ≠ (effectiveAddress (st3 1#16 0x7FFF#16 3#16) 2 0).toNat / 2 := by decide
theorem witness_SwapTwiceRestores : (1 : Reg) ≠ 2 ∧ (effectiveAddress (st3 1#16 0x7FFF#16 3#16) 2 0).toNat < 0x8000 := by
  decide
/-- A called routine that kept the link in R7. -/
theorem witness_CallAndReturn : (st3 1#16 2#16 3#16).pc.toNat % 2 = 0 ∧
    gives (exec (.jlr 7 3 2) (st3 1#16 2#16 3#16))
      (fun t => ((st3 1#16 2#16 3#16).setReg 7 0x0102#16).reg 7 == t.reg 7) = true := by decide
theorem witness_PlacedWordRunsNext :
    decodeUnder (st3 1#16 2#16 3#16).params.reservedPolicy (BitVec.ofNat 16 0x8283) = .ok (.addReg 1 2 3) ∧
    0x8283 < 65536 := by decide

/-- Fields of different values at every place: BRC's selects, LDR's registers, SHR's a. -/
theorem witness_FieldsStandWhereTheFormatsPutThem : decode 0x24FD#16 = .ok (.brc false true false false 0xFD) ∧
    wordNumber (.brc false true false false 0xFD) = 0x24FD ∧ wordNumber (.ldr 1 2 3) = 0x5283 ∧
    wordNumber (.shrImm 1 2 true 4) = 0xD2B4 := by decide
/-- The launch of the reset state, with an even vector and one sign flag in CC and in CCsh. -/
theorem witness_LaunchStartsTheInvariants :
    ({ Launch.default with params := ⟨0#15, 0x0040#16, false, .refuse⟩ } : Launch).params.intVector.toNat % 2 = 0 ∧
    Launch.default.pcsh.toNat % 2 = 0 ∧
    Safety.oneSign ({ Launch.default with cc := ⟨false, true, false, true⟩ } : Launch).cc = true ∧
    Safety.oneSign ({ Launch.default with ccsh := ⟨true, false, false, false⟩ } : Launch).ccsh = true := by decide

/-- A request presented and acceptable; one presented inside a routine, not acceptable. -/
theorem witness_EveryBoundaryHasItsRequestBit :
    (∃ t, step { st3 1#16 2#16 3#16 with irq := .bit true (.free 0 0) } = .next t ∧ t.irq = .free 0 0) ∧
    (requestAt (.bit true (.free 0 0)) 0 && acceptsInterrupt (st3 1#16 2#16 3#16)) = true ∧
    (∃ t, step { at0100 (st3 1#16 2#16 3#16) 0x8283#16 with il := true, irq := .bit true (.free 0 0) } = .next t) ∧
    (requestAt (.bit true (.free 0 0)) 0 && acceptsInterrupt { st3 1#16 2#16 3#16 with il := true }) = false :=
  ⟨⟨_, rfl, rfl⟩, by decide, ⟨_, rfl⟩, by decide⟩

end Sys2Proof.Tests
end

section
/-! PROOFS. What no instruction can write (R44, R45, R51, R217), and the input IRQ boundary by boundary (R203). -/

namespace Sys2Proof.Proofs

open Machine Claims

/-! ### What a memory access and an instruction leave unchanged -/

/-- A data read touches nothing but the device. -/
theorem memRead_frame {s t : State} {a v : Word} (h : memRead s a = some (v, t)) : t = { s with periph := t.periph } := by
  obtain ⟨_, _, rfl⟩ | ⟨_, _, _, _, rfl⟩ := memRead_cases h
  · rfl
  · rfl

/-- A data write touches nothing but free memory and the device. -/
theorem memWrite_frame {s t : State} {a v : Word} (h : memWrite s a v = some t) :
    t = { s with mem := t.mem, periph := t.periph } := by
  obtain ⟨_, rfl⟩ | ⟨_, _, _, rfl⟩ := memWrite_cases h
  · rfl
  · rfl

/-- `t` differs from `s` at most in what an instruction can write: the program space, the storage space, the shadows, the
input IRQ, the draw and the parameters are those of `s`. -/
def KeepsUnwritable (s t : State) : Prop :=
  t = { s with
    regs := t.regs, pc := t.pc, cc := t.cc, il := t.il, hl := t.hl, mem := t.mem, periph := t.periph }

theorem keepsUnwritable_execBrc {bn bz bp bc : Bool} {imm8 : BitVec 8} {s t : State}
    (h : execBrc bn bz bp bc imm8 s = .next t) : KeepsUnwritable s t := by
  obtain rfl := Host.Outcome.next.inj h
  split
  · rfl
  · rfl

theorem keepsUnwritable_execLdr {dst sr1 : Reg} {ofst6 : BitVec 6} {s t : State}
    (h : execLdr dst sr1 ofst6 s = .next t) : KeepsUnwritable s t := by
  unfold execLdr at h
  split at h
  · rename_i hread
    obtain rfl := Host.Outcome.next.inj h
    rw [memRead_frame hread]
    rfl
  · cases h

theorem keepsUnwritable_execStr {src sr1 : Reg} {ofst6 : BitVec 6} {s t : State}
    (h : execStr src sr1 ofst6 s = .next t) : KeepsUnwritable s t := by
  unfold execStr at h
  split at h
  · rename_i hwrite
    obtain rfl := Host.Outcome.next.inj h
    rw [memWrite_frame hwrite]
    rfl
  · cases h

theorem keepsUnwritable_execSwp {dst sr1 : Reg} {ofst6 : BitVec 6} {s t : State}
    (h : execSwp dst sr1 ofst6 s = .next t) : KeepsUnwritable s t := by
  unfold execSwp at h
  split at h
  · rename_i hread
    split at h
    · rename_i hwrite
      obtain rfl := Host.Outcome.next.inj h
      rw [memWrite_frame hwrite, memRead_frame hread]
      rfl
    · cases h
  · cases h

/-- An instruction that completes writes registers, PC, CC, the latches, free memory and the device, and nothing else: the
memory instructions by what their accesses keep, the others by their one equation. -/
theorem keepsUnwritable_exec {i : Instr} {s t : State} (h : exec i s = .next t) : KeepsUnwritable s t := by
  cases i with
  | brc => exact keepsUnwritable_execBrc h
  | ldr => exact keepsUnwritable_execLdr h
  | str => exact keepsUnwritable_execStr h
  | swp => exact keepsUnwritable_execSwp h
  | _ => obtain rfl := Host.Outcome.next.inj h; rfl

theorem exec_irq {i : Instr} {s t : State} (h : exec i s = .next t) : t.irq = s.irq := by
  have hframe := keepsUnwritable_exec h
  unfold KeepsUnwritable at hframe
  rw [hframe]

/-- Entry and instruction alike use up the one bit of their boundary (R203: no pending register). -/
theorem step_irq {s t : State} (h : step s = .next t) : t.irq = irqRest s.irq := by
  obtain ⟨_, ⟨_, _, rfl⟩ | ⟨_, i, _, hexec⟩⟩ := step_cases h
  · rfl
  · exact exec_irq hexec

theorem step_of_accepted {s t : State} (h : step s = .next t) (haccepted : (irqNow s && acceptsInterrupt s) = true) :
    t = interruptEntry (passBoundary s) := by
  obtain ⟨_, ⟨_, _, hentry⟩ | ⟨hno, _⟩⟩ := step_cases h
  · exact hentry
  · rw [haccepted] at hno
    cases hno

theorem step_of_not_accepted {s t : State} (h : step s = .next t)
    (hno : (irqNow s && acceptsInterrupt s) = false) :
    ∃ i, fetch s = .ok i ∧ exec i (passBoundary s) = .next t := by
  obtain ⟨_, ⟨hnow, haccepts, _⟩ | ⟨_, hexec⟩⟩ := step_cases h
  · rw [hnow, haccepts] at hno
    cases hno
  · exact hexec

/-! ### The bits of an input, boundary by boundary -/

@[simp] theorem requestAt_zero (q : Irq) : requestAt q 0 = irqHead q := rfl
@[simp] theorem requestAt_succ (q : Irq) (n : Nat) : requestAt q (n + 1) = requestAt (irqRest q) n := rfl

@[simp] theorem requestAt_never (n : Nat) : requestAt .never n = false := by
  induction n with
  | zero => rfl
  | succ n ih => exact ih

@[simp] theorem requestAt_free (env boundary n : Nat) :
    requestAt (.free env boundary) n = Config.irqBit env (boundary + n) := by
  induction n generalizing boundary with
  | zero => rfl
  | succ n ih => rw [requestAt_succ, irqRest_free, ih, Nat.add_right_comm, Nat.add_assoc]

/-- The input with the bits `f 0` to `f (n - 1)` at the first `n` boundaries, and then as `q`. -/
def bitsThen (f : Nat → Bool) (n : Nat) (q : Irq) : Irq :=
  match n with
  | 0 => q
  | n + 1 => .bit (f 0) (bitsThen (fun m => f (m + 1)) n q)

theorem requestAt_bitsThen_of_lt (f : Nat → Bool) (n m : Nat) (q : Irq) (h : m < n) :
    requestAt (bitsThen f n q) m = f m := by
  induction n generalizing f m with
  | zero => exact absurd h (Nat.not_lt_zero m)
  | succ n ih =>
    cases m with
    | zero => rfl
    | succ m => exact ih (fun k => f (k + 1)) m (Nat.lt_of_succ_lt_succ h)

theorem requestAt_bitsThen_add (f : Nat → Bool) (n m : Nat) (q : Irq) :
    requestAt (bitsThen f n q) (n + m) = requestAt q m := by
  induction n generalizing f with
  | zero => rw [Nat.zero_add]; rfl
  | succ n ih => rw [Nat.succ_add]; exact ih _

/-- Settles O54: what a step does at its boundary is `step_cases`, the bit there being `irqNow`; an input with any first
`n` bits is `bitsThen`, over the open environment or over no request. -/
theorem everyBoundaryHasItsRequestBit : Obligations.EveryBoundaryHasItsRequestBit := by
  refine ⟨fun s t h => ⟨step_irq h, step_of_accepted h, step_of_not_accepted h⟩,
    fun f n env boundary => ⟨bitsThen f n (.free env boundary), fun m => requestAt_bitsThen_of_lt f n m _, fun m => ?_⟩,
    fun f n => ⟨bitsThen f n .never, fun m => requestAt_bitsThen_of_lt f n m _, fun m => ?_⟩⟩
  · rw [requestAt_bitsThen_add, requestAt_free]
  · rw [requestAt_bitsThen_add, requestAt_never]

end Sys2Proof.Proofs
end

section
/-! PROOFS. What a completing instruction can do to the state of spec/10_state.md, said once: its memory accesses, its
effect by kind, its new PC (R23), and the fields it does not read. -/

namespace Sys2Proof.Proofs

open Machine Claims

/-! ### The step, run forwards -/

theorem step_of_halted {s : State} (hhl : s.hl = true) : step s = .fault .halted := by
  simp [step, hhl]

theorem step_eq_entry {s : State} (hhl : s.hl = false) (hnow : irqNow s = true) (haccepts : acceptsInterrupt s = true) :
    step s = .next (interruptEntry (passBoundary s)) := by
  simp [step, hhl, hnow, haccepts]

theorem step_eq_exec {s : State} {i : Instr} (hhl : s.hl = false) (hno : (irqNow s && acceptsInterrupt s) = false)
    (hfetch : fetch s = .ok i) : step s = exec i (passBoundary s) := by
  simp [step, hhl, hno, hfetch]

/-! ### When the instructions with branches complete, and what they leave -/

/-- A taken and an untaken branch differ in PC alone (R160). -/
theorem execBrc_eq (bn bz bp bc : Bool) (imm8 : BitVec 8) (s : State) :
    execBrc bn bz bp bc imm8 s =
      .next (s.setPc (if branchTaken bn bz bp bc s.cc then branchTarget s imm8 else s.nextPc)) := by
  unfold execBrc
  split
  · rfl
  · rfl

theorem execLdr_eq_next_iff {dst sr1 : Reg} {ofst6 : BitVec 6} {s t : State} :
    execLdr dst sr1 ofst6 s = .next t ↔
      ∃ v u, memRead s (effectiveAddress s sr1 ofst6) = some (v, u) ∧ t = (u.setReg dst v).advance := by
  unfold execLdr
  split
  · rename_i v u hread
    simp [hread, eq_comm]
  · rename_i hread
    simp [hread]

theorem execStr_eq_next_iff {src sr1 : Reg} {ofst6 : BitVec 6} {s t : State} :
    execStr src sr1 ofst6 s = .next t ↔
      ∃ u, memWrite s (effectiveAddress s sr1 ofst6) (s.reg src) = some u ∧ t = u.advance := by
  unfold execStr
  split
  · rename_i u hwrite
    simp [hwrite, eq_comm]
  · rename_i hwrite
    simp [hwrite]

theorem execSwp_eq_next_iff {dst sr1 : Reg} {ofst6 : BitVec 6} {s t : State} :
    execSwp dst sr1 ofst6 s = .next t ↔
      ∃ v u w, memRead s (effectiveAddress s sr1 ofst6) = some (v, u) ∧
        memWrite u (effectiveAddress s sr1 ofst6) (s.reg dst) = some w ∧ t = (w.setReg dst v).advance := by
  unfold execSwp
  split
  · rename_i v u hread
    split
    · rename_i w hwrite
      simp [hread, hwrite, eq_comm]
    · rename_i hwrite
      simp [hread, hwrite]
  · rename_i hread
    simp [hread]

/-! ### The effect of a completing instruction, by its kind -/

/-- What an instruction that completes leaves: the result of an updating instruction, the return, the halt, or a change of
registers, PC, free memory and device that leaves the flags and the latches. -/
inductive Effect (s : State) : Instr → State → Prop where
  | result {i : Instr} (dst : Reg) (res : Word) (carry : Bool) (hupdates : updatesCc i = true)
      (hreturn : isReturn i = false) (hhalt : isHalt i = false) (hdst : destination i = some dst) :
      Effect s i (writeResult s dst res carry)
  | ret (sr1 : Reg) (imm5 : BitVec 5) : Effect s (.jprReturn sr1 imm5) (returnFromInterrupt s)
  | halt : Effect s .hlt { s with hl := true }
  | other {i : Instr} (regs : Vector Word 8) (pc : Word) (mem : Memory) (periph : Periph) (hupdates : updatesCc i = false)
      (hreturn : isReturn i = false) (hhalt : isHalt i = false)
      (hregs : ∀ r, destination i ≠ some r → ({ s with regs := regs } : State).reg r = s.reg r) :
      Effect s i { s with regs := regs, pc := pc, mem := mem, periph := periph }

/-- A register other than the destination reads through a write to the destination. -/
theorem reg_setReg_of_destination_ne {i : Instr} {dst r : Reg} (hdst : destination i = some dst)
    (hr : destination i ≠ some r) (s : State) (v : Word) : (s.setReg dst v).reg r = s.reg r :=
  State.reg_setReg_other s v fun e => hr (e ▸ hdst)

theorem effect_execLdr {dst sr1 : Reg} {ofst6 : BitVec 6} {s t : State} (h : execLdr dst sr1 ofst6 s = .next t) :
    Effect s (.ldr dst sr1 ofst6) t := by
  obtain ⟨v, u, hread, rfl⟩ := execLdr_eq_next_iff.mp h
  rw [memRead_frame hread]
  exact .other _ _ _ _ rfl rfl rfl fun r hr => reg_setReg_of_destination_ne rfl hr s v

theorem effect_execStr {src sr1 : Reg} {ofst6 : BitVec 6} {s t : State} (h : execStr src sr1 ofst6 s = .next t) :
    Effect s (.str src sr1 ofst6) t := by
  obtain ⟨u, hwrite, rfl⟩ := execStr_eq_next_iff.mp h
  rw [memWrite_frame hwrite]
  exact .other _ _ _ _ rfl rfl rfl fun _ _ => rfl

theorem effect_execSwp {dst sr1 : Reg} {ofst6 : BitVec 6} {s t : State} (h : execSwp dst sr1 ofst6 s = .next t) :
    Effect s (.swp dst sr1 ofst6) t := by
  obtain ⟨v, u, w, hread, hwrite, rfl⟩ := execSwp_eq_next_iff.mp h
  rw [memWrite_frame hwrite, memRead_frame hread]
  exact .other _ _ _ _ rfl rfl rfl fun r hr => reg_setReg_of_destination_ne rfl hr s v

theorem effect_execBrc {bn bz bp bc : Bool} {imm8 : BitVec 8} {s t : State}
    (h : execBrc bn bz bp bc imm8 s = .next t) : Effect s (.brc bn bz bp bc imm8) t := by
  rw [execBrc_eq] at h
  obtain rfl := Host.Outcome.next.inj h
  exact .other _ _ _ _ rfl rfl rfl fun _ _ => rfl

theorem effect_execJlr {dst sr1 : Reg} {imm5 : BitVec 5} {s t : State} (h : execJlr dst sr1 imm5 s = .next t) :
    Effect s (.jlr dst sr1 imm5) t := by
  obtain rfl := Host.Outcome.next.inj h
  exact .other _ _ _ _ rfl rfl rfl fun r hr => reg_setReg_of_destination_ne rfl hr s s.nextPc

/-- Every instruction has the effect of its kind; the last case is the fifteen that write a result and CC. -/
theorem effect_exec {i : Instr} {s t : State} (h : exec i s = .next t) : Effect s i t := by
  cases i with
  | ldr => exact effect_execLdr h
  | str => exact effect_execStr h
  | swp => exact effect_execSwp h
  | brc => exact effect_execBrc h
  | jlr => exact effect_execJlr h
  | nop => obtain rfl := Host.Outcome.next.inj h; exact .other _ _ _ _ rfl rfl rfl fun _ _ => rfl
  | jpr => obtain rfl := Host.Outcome.next.inj h; exact .other _ _ _ _ rfl rfl rfl fun _ _ => rfl
  | jprReturn => obtain rfl := Host.Outcome.next.inj h; exact .ret _ _
  | hlt => obtain rfl := Host.Outcome.next.inj h; exact .halt
  | _ => obtain rfl := Host.Outcome.next.inj h; exact .result _ _ _ rfl rfl rfl rfl

/-! ### Field by field -/

theorem exec_il {i : Instr} {s t : State} (h : exec i s = .next t) : t.il = (s.il && !isReturn i) := by
  cases effect_exec h with
  | result _ _ _ _ hreturn => simp [writeResult, hreturn]
  | ret => simp [isReturn]
  | halt => simp [isReturn]
  | other _ _ _ _ _ hreturn => simp [hreturn]

theorem exec_hl {i : Instr} {s t : State} (h : exec i s = .next t) : t.hl = (s.hl || isHalt i) := by
  cases effect_exec h with
  | result _ _ _ _ _ hhalt => simp [writeResult, hhalt]
  | ret => simp [isHalt]
  | halt => simp [isHalt]
  | other _ _ _ _ _ _ hhalt => simp [hhalt]

theorem exec_reg {i : Instr} {s t : State} {r : Reg} (h : exec i s = .next t) (hr : destination i ≠ some r) :
    t.reg r = s.reg r := by
  cases effect_exec h with
  | result _ _ _ _ _ _ hdst => exact reg_setReg_of_destination_ne hdst hr s _
  | ret => rfl
  | halt => rfl
  | other _ _ _ _ _ _ _ hregs => exact hregs r hr

/-- `SetCC` of a result gives the sign flags of R27. -/
theorem signFlags_flagsOf (res : Word) (carry : Bool) : SignFlags res (flagsOf res carry) := by
  have hneg : res.msb = true ↔ res.toInt < 0 := by simp [BitVec.msb_eq_toInt]
  have hzero : res = 0x0000#16 ↔ res.toInt = 0 := by rw [← BitVec.toInt_inj, BitVec.toInt_zero]
  refine ⟨hneg, ?_, ?_⟩
  · simp [flagsOf, hzero]
  · simp only [flagsOf, Bool.and_eq_true, Bool.not_eq_true', ← Bool.not_eq_true, bne_iff_ne, ne_eq, hneg, hzero]
    omega

/-- An integer is negative, zero or positive, and only one of them (R29). -/
theorem oneSign_of_signFlags {res : Word} {cc : Cc} (h : SignFlags res cc) : Safety.oneSign cc = true := by
  obtain ⟨hn, hz, hp⟩ := h
  simp only [Safety.oneSign, Bool.or_eq_true, Bool.and_eq_true, Bool.not_eq_true', ← Bool.not_eq_true, hn, hz, hp]
  omega

theorem exec_cc_of_updatesCc {i : Instr} {s t : State} (h : exec i s = .next t) (hupdates : updatesCc i = true) :
    ∃ d, destination i = some d ∧ SignFlags (t.reg d) t.cc := by
  cases effect_exec h with
  | result dst res carry _ _ _ hdst =>
    refine ⟨dst, hdst, ?_⟩
    rw [reg_writeResult, if_pos rfl]
    exact signFlags_flagsOf res carry
  | ret => cases hupdates
  | halt => cases hupdates
  | other _ _ _ _ hother => rw [hother] at hupdates; cases hupdates

theorem exec_cc_of_isReturn {i : Instr} {s t : State} (h : exec i s = .next t) (hreturn : isReturn i = true) :
    t.cc = s.ccsh := by
  cases effect_exec h with
  | result _ _ _ _ hno => rw [hno] at hreturn; cases hreturn
  | ret => rfl
  | halt => cases hreturn
  | other _ _ _ _ _ hno => rw [hno] at hreturn; cases hreturn

theorem exec_cc_of_not_writer {i : Instr} {s t : State} (h : exec i s = .next t) (hupdates : updatesCc i = false)
    (hreturn : isReturn i = false) : t.cc = s.cc := by
  cases effect_exec h with
  | result _ _ _ hresult => rw [hresult] at hupdates; cases hupdates
  | ret => cases hreturn
  | halt => rfl
  | other => rfl

theorem exec_pcsh {i : Instr} {s t : State} (h : exec i s = .next t) : t.pcsh = s.pcsh := by
  rw [show t = _ from keepsUnwritable_exec h]

theorem exec_ccsh {i : Instr} {s t : State} (h : exec i s = .next t) : t.ccsh = s.ccsh := by
  rw [show t = _ from keepsUnwritable_exec h]

theorem exec_storage {i : Instr} {s t : State} (h : exec i s = .next t) : t.storage = s.storage := by
  rw [show t = _ from keepsUnwritable_exec h]

theorem exec_params {i : Instr} {s t : State} (h : exec i s = .next t) : t.params = s.params := by
  rw [show t = _ from keepsUnwritable_exec h]

/-! ### The new PC -/

theorem branchTaken_iff (bn bz bp bc : Bool) (cc : Cc) :
    branchTaken bn bz bp bc cc = true ↔ BranchCondition bn bz bp bc cc := by
  simp [branchTaken, BranchCondition, Bool.or_assoc, imp_iff_not_or]

theorem newPc_execBrc {bn bz bp bc : Bool} {imm8 : BitVec 8} {s t : State}
    (h : execBrc bn bz bp bc imm8 s = .next t) : newPc (.brc bn bz bp bc imm8) s t.pc := by
  rw [execBrc_eq] at h
  obtain rfl := Host.Outcome.next.inj h
  refine ⟨fun htaken => ?_, fun hnot => ?_⟩
  · exact if_pos ((branchTaken_iff ..).mpr htaken)
  · exact if_neg (mt (branchTaken_iff ..).mp hnot)

theorem newPc_execLdr {dst sr1 : Reg} {ofst6 : BitVec 6} {s t : State} (h : execLdr dst sr1 ofst6 s = .next t) :
    newPc (.ldr dst sr1 ofst6) s t.pc := by
  obtain ⟨v, u, hread, rfl⟩ := execLdr_eq_next_iff.mp h
  rw [memRead_frame hread]
  rfl

theorem newPc_execStr {src sr1 : Reg} {ofst6 : BitVec 6} {s t : State} (h : execStr src sr1 ofst6 s = .next t) :
    newPc (.str src sr1 ofst6) s t.pc := by
  obtain ⟨u, hwrite, rfl⟩ := execStr_eq_next_iff.mp h
  rw [memWrite_frame hwrite]
  rfl

theorem newPc_execSwp {dst sr1 : Reg} {ofst6 : BitVec 6} {s t : State} (h : execSwp dst sr1 ofst6 s = .next t) :
    newPc (.swp dst sr1 ofst6) s t.pc := by
  obtain ⟨v, u, w, hread, hwrite, rfl⟩ := execSwp_eq_next_iff.mp h
  rw [memWrite_frame hwrite, memRead_frame hread]
  rfl

/-- The table of R23: the branch by its condition, the memory instructions by what their accesses keep, the others by
their one equation. -/
theorem newPc_exec {i : Instr} {s t : State} (h : exec i s = .next t) : newPc i s t.pc := by
  cases i with
  | brc => exact newPc_execBrc h
  | ldr => exact newPc_execLdr h
  | str => exact newPc_execStr h
  | swp => exact newPc_execSwp h
  | _ => obtain rfl := Host.Outcome.next.inj h; rfl

/-! ### The fields an instruction does not read -/

/-- The state with other shadows, another HL and another storage space. -/
def withUnread (pcsh : Word) (ccsh : Cc) (hl : Bool) (storage : Memory) (s : State) : State :=
  { s with pcsh := pcsh, ccsh := ccsh, hl := hl, storage := storage }

section
variable {pcsh : Word} {ccsh : Cc} {hl : Bool} {storage : Memory}

theorem memRead_withUnread {s t : State} {a v : Word} (h : memRead s a = some (v, t)) :
    memRead (withUnread pcsh ccsh hl storage s) a = some (v, withUnread pcsh ccsh hl storage t) := by
  obtain ⟨hfree, rfl, rfl⟩ | ⟨hfree, st, hst, rfl, rfl⟩ := memRead_cases h
  · simp only [memRead, hfree, if_true]
    rfl
  · simp [memRead, withUnread, hfree, hst]

theorem memWrite_withUnread {s t : State} {a v : Word} (h : memWrite s a v = some t) :
    memWrite (withUnread pcsh ccsh hl storage s) a v = some (withUnread pcsh ccsh hl storage t) := by
  obtain ⟨hfree, rfl⟩ | ⟨hfree, st, hst, rfl⟩ := memWrite_cases h
  · simp only [memWrite, hfree, if_true]
    rfl
  · simp [memWrite, withUnread, hfree, hst]

/-- An instruction does the same whatever the shadows, HL and the storage space hold, the shadows being those of `s` if it
is the return; it leaves them as they are, but HLT sets HL. -/
theorem exec_withUnread {i : Instr} {s t : State} (h : exec i s = .next t)
    (hshadows : isReturn i = true → pcsh = s.pcsh ∧ ccsh = s.ccsh) :
    exec i (withUnread pcsh ccsh hl storage s) = .next (withUnread pcsh ccsh (isHalt i || hl) storage t) := by
  cases i with
  | ldr =>
    obtain ⟨v, u, hread, rfl⟩ := execLdr_eq_next_iff.mp h
    exact execLdr_eq_next_iff.mpr ⟨v, _, memRead_withUnread hread, rfl⟩
  | str =>
    obtain ⟨u, hwrite, rfl⟩ := execStr_eq_next_iff.mp h
    exact execStr_eq_next_iff.mpr ⟨_, memWrite_withUnread hwrite, rfl⟩
  | swp =>
    obtain ⟨v, u, w, hread, hwrite, rfl⟩ := execSwp_eq_next_iff.mp h
    exact execSwp_eq_next_iff.mpr ⟨v, _, _, memRead_withUnread hread, memWrite_withUnread hwrite, rfl⟩
  | brc =>
    obtain rfl := Host.Outcome.next.inj ((execBrc_eq ..).symm.trans h)
    exact execBrc_eq ..
  | jprReturn =>
    obtain rfl := Host.Outcome.next.inj h
    obtain ⟨rfl, rfl⟩ := hshadows rfl
    rfl
  | _ =>
    obtain rfl := Host.Outcome.next.inj h
    rfl

end

theorem exec_withShadows {i : Instr} {s t : State} (pcsh : Word) (ccsh : Cc) (hreturn : isReturn i = false)
    (h : exec i s = .next t) :
    exec i { s with pcsh := pcsh, ccsh := ccsh } = .next { t with pcsh := pcsh, ccsh := ccsh } :=
  calc exec i { s with pcsh := pcsh, ccsh := ccsh }
    _ = .next (withUnread pcsh ccsh (isHalt i || s.hl) s.storage t) :=
      exec_withUnread h fun hyes => absurd hyes (Bool.eq_false_iff.mp hreturn)
    _ = .next { t with pcsh := pcsh, ccsh := ccsh } := by rw [Bool.or_comm, ← exec_hl h, ← exec_storage h]; rfl

theorem exec_withHl {i : Instr} {s t : State} (hl : Bool) (h : exec i s = .next t) :
    exec i { s with hl := hl } = .next { t with hl := hl || isHalt i } :=
  calc exec i { s with hl := hl }
    _ = .next (withUnread s.pcsh s.ccsh (isHalt i || hl) s.storage t) := exec_withUnread h fun _ => ⟨rfl, rfl⟩
    _ = .next { t with hl := hl || isHalt i } := by
      rw [Bool.or_comm, ← exec_pcsh h, ← exec_ccsh h, ← exec_storage h]; rfl

theorem exec_withStorage {i : Instr} {s t : State} (storage : Memory) (h : exec i s = .next t) :
    exec i { s with storage := storage } = .next { t with storage := storage } :=
  calc exec i { s with storage := storage }
    _ = .next (withUnread s.pcsh s.ccsh (isHalt i || s.hl) storage t) := exec_withUnread h fun _ => ⟨rfl, rfl⟩
    _ = .next { t with storage := storage } := by
      rw [Bool.or_comm, ← exec_pcsh h, ← exec_ccsh h, ← exec_hl h]; rfl

end Sys2Proof.Proofs
end

section
/-! PROOFS. The statements of spec/10_state.md: who writes and who reads each piece of state, the two invariants, and the
state after reset. -/

namespace Sys2Proof.Proofs

open Machine Claims

/-! ### The invariants (R24, R29) -/

theorem flagsSound_iff (s : State) :
    Safety.flagsSound s = true ↔ Safety.oneSign s.cc = true ∧ Safety.oneSign s.ccsh = true := by
  rw [Safety.flagsSound, Bool.and_eq_true]

theorem oneSign_exec_of_updatesCc {i : Instr} {s t : State} (hupdates : updatesCc i = true) (h : exec i s = .next t) :
    Safety.oneSign t.cc = true := by
  obtain ⟨d, _, hsign⟩ := exec_cc_of_updatesCc h hupdates
  exact oneSign_of_signFlags hsign

/-- CC gets flags of a result, the return takes those of the shadow, and no other instruction writes CC; CCsh stays. -/
theorem flagsSound_exec {i : Instr} {s t : State} (hsound : Safety.flagsSound s = true) (h : exec i s = .next t) :
    Safety.flagsSound t = true := by
  obtain ⟨hcc, hccsh⟩ := (flagsSound_iff s).mp hsound
  rw [flagsSound_iff, exec_ccsh h]
  refine ⟨?_, hccsh⟩
  by_cases hupdates : updatesCc i = true
  · exact oneSign_exec_of_updatesCc hupdates h
  · by_cases hreturn : isReturn i = true
    · rwa [exec_cc_of_isReturn h hreturn]
    · rwa [exec_cc_of_not_writer h (Bool.eq_false_iff.mpr hupdates) (Bool.eq_false_iff.mpr hreturn)]

/-- Settles O44: entry copies CC to CCsh, and an instruction keeps both sound by `flagsSound_exec`. -/
theorem stepKeepsOneSignFlag : Obligations.StepKeepsOneSignFlag := by
  refine ⟨fun s t hsound h => ?_, fun i s t => oneSign_exec_of_updatesCc⟩
  obtain ⟨_, ⟨_, _, rfl⟩ | ⟨_, i, _, hexec⟩⟩ := step_cases h
  · have hcc := ((flagsSound_iff s).mp hsound).1
    exact (flagsSound_iff _).mpr ⟨hcc, hcc⟩
  · exact flagsSound_exec (s := passBoundary s) hsound hexec

theorem not_getLsbD_zero_iff (w : Word) : (!w.getLsbD 0) = true ↔ w.toNat % 2 = 0 := by
  simp [BitVec.getLsbD, Nat.testBit_zero]

theorem pcAligned_iff (s : State) :
    Safety.pcAligned s = true ↔
      s.pc.toNat % 2 = 0 ∧ s.pcsh.toNat % 2 = 0 ∧ s.params.intVector.toNat % 2 = 0 := by
  simp only [Safety.pcAligned, Bool.and_eq_true, not_getLsbD_zero_iff, and_assoc]

theorem add_two_even {w : Word} (h : w.toNat % 2 = 0) : (w + 2#16).toNat % 2 = 0 := by
  simp only [BitVec.toNat_add, BitVec.toNat_ofNat]
  omega

theorem add_doubled_even {w : Word} (v : Word) (h : w.toNat % 2 = 0) : (w + (v <<< 1)).toNat % 2 = 0 := by
  simp only [BitVec.toNat_add, BitVec.toNat_shiftLeft, Nat.shiftLeft_eq]
  omega

theorem floorWord_even (w : Word) : (floorWord w).toNat % 2 = 0 := by
  rw [floorWord_toNat]
  exact Nat.mul_mod_left _ 2

/-- Every row of the table of R23 gives an even PC from an even PC and an even shadow. -/
theorem even_of_newPc {i : Instr} {s : State} {pc : Word} (hnew : newPc i s pc) (hpc : s.pc.toNat % 2 = 0)
    (hpcsh : s.pcsh.toNat % 2 = 0) : pc.toNat % 2 = 0 := by
  cases i with
  | brc bn bz bp bc imm8 =>
    obtain ⟨htaken, hnot⟩ := hnew
    by_cases hcond : BranchCondition bn bz bp bc s.cc
    · rw [htaken hcond]
      exact add_doubled_even _ (add_two_even hpc)
    · rw [hnot hcond]
      exact add_two_even hpc
  | jpr => rw [show pc = _ from hnew]; exact floorWord_even _
  | jlr => rw [show pc = _ from hnew]; exact floorWord_even _
  | jprReturn => rwa [show pc = _ from hnew]
  | hlt => rwa [show pc = _ from hnew]
  | _ => rw [show pc = _ from hnew]; exact add_two_even hpc

theorem pcAligned_exec {i : Instr} {s t : State} (haligned : Safety.pcAligned s = true) (h : exec i s = .next t) :
    Safety.pcAligned t = true := by
  obtain ⟨hpc, hpcsh, hvector⟩ := (pcAligned_iff s).mp haligned
  rw [pcAligned_iff, exec_pcsh h, exec_params h]
  exact ⟨even_of_newPc (newPc_exec h) hpc hpcsh, hpcsh, hvector⟩

/-- Settles O45: entry moves PC to its shadow and the vector to PC, and an instruction keeps the three even by the table of
R23. -/
theorem stepKeepsPcAligned : Obligations.StepKeepsPcAligned := by
  intro s t haligned h
  obtain ⟨_, ⟨_, _, rfl⟩ | ⟨_, i, _, hexec⟩⟩ := step_cases h
  · obtain ⟨hpc, _, hvector⟩ := (pcAligned_iff s).mp haligned
    exact (pcAligned_iff _).mpr ⟨hvector, hpc, hvector⟩
  · exact pcAligned_exec (s := passBoundary s) haligned hexec

/-! ### Who writes and who reads each piece of state -/

/-- Settles O24: the table is `newPc_exec`, the entry its own equation. -/
theorem programCounterTable : Obligations.ProgramCounterTable :=
  ⟨fun _ _ _ => newPc_exec, fun _ => rfl⟩

/-- Settles O25, by the three kinds of instruction of R26. -/
theorem conditionCodeWriters : Obligations.ConditionCodeWriters := by
  refine ⟨fun i s t h => ⟨fun hupdates d hd => ?_, exec_cc_of_isReturn h, exec_cc_of_not_writer h⟩, fun _ => ⟨rfl, rfl⟩⟩
  obtain ⟨dst, hdst, hsign⟩ := exec_cc_of_updatesCc h hupdates
  obtain rfl := Option.some.inj (hdst.symm.trans hd)
  exact hsign

theorem step_shadows {s t : State} (h : step s = .next t) :
    (t.pcsh = s.pcsh ∧ t.ccsh = s.ccsh) ∨ (t = interruptEntry (passBoundary s) ∧ t.pcsh = s.pc ∧ t.ccsh = s.cc) := by
  obtain ⟨_, ⟨_, _, rfl⟩ | ⟨_, i, _, hexec⟩⟩ := step_cases h
  · exact .inr ⟨rfl, rfl, rfl⟩
  · exact .inl ⟨exec_pcsh (s := passBoundary s) hexec, exec_ccsh (s := passBoundary s) hexec⟩

/-- Settles O26: the writing is `step_shadows`, the reading `exec_withShadows`, the return its own equation. -/
theorem shadowsWrittenOnlyByEntry : Obligations.ShadowsWrittenOnlyByEntry :=
  ⟨fun _ _ => step_shadows, fun _ _ _ p c => exec_withShadows p c,
    fun s _ _ => ⟨returnFromInterrupt s, rfl, rfl, rfl, rfl, rfl, fun _ => rfl, fun _ => rfl, fun _ => rfl, rfl⟩⟩

/-- Settles O27: HL after an instruction is `exec_hl`, that none reads it `exec_withHl`, and a launch has it clear. -/
theorem haltLatchRule : Obligations.HaltLatchRule :=
  ⟨fun _ _ _ hl h => ⟨exec_hl h, exec_withHl hl h⟩, fun _ _ => rfl, fun _ => step_of_halted⟩

/-- Settles O28: no instruction sets IL, so a step that ends with it set and began without it is interrupt entry. -/
theorem interruptLatchRule : Obligations.InterruptLatchRule := by
  refine ⟨fun i s t => exec_il, fun s t h hil => ?_⟩
  obtain ⟨_, ⟨_, _, hentry⟩ | ⟨_, i, _, hexec⟩⟩ := step_cases h
  · exact .inr hentry
  · rw [exec_il hexec, Bool.and_eq_true] at hil
    exact .inl hil.1

/-- Settles O29, by the destination of each kind of `Effect`. -/
theorem registersWritten : Obligations.RegistersWritten :=
  ⟨fun _ _ _ _ => exec_reg, fun _ _ => rfl⟩

theorem step_storage {s t : State} (h : step s = .next t) : t.storage = s.storage := by
  obtain ⟨_, ⟨_, _, rfl⟩ | ⟨_, i, _, hexec⟩⟩ := step_cases h
  · rfl
  · exact exec_storage (s := passBoundary s) hexec

/-- Neither the acceptance of a request, nor the fetch, nor an instruction reads the storage space (R45). -/
theorem step_withStorage {s t : State} (storage : Memory) (h : step s = .next t) :
    step { s with storage := storage } = .next { t with storage := storage } := by
  obtain ⟨hhl, ⟨hnow, haccepts, rfl⟩ | ⟨hno, i, hfetch, hexec⟩⟩ := step_cases h
  · exact step_eq_entry (s := { s with storage := storage }) hhl hnow haccepts
  · exact (step_eq_exec (s := { s with storage := storage }) hhl hno hfetch).trans (exec_withStorage storage hexec)

/-- Settles O32: the writing is `step_storage`, the reading `step_withStorage`; a reset launches with the old space. -/
theorem storageUnreachable : Obligations.StorageUnreachable :=
  ⟨fun _ _ m h => ⟨step_storage h, step_withStorage m h⟩, fun _ _ => rfl⟩

/-! ### After reset (R36, R37, R230, R231) -/

theorem resetPc_even (p : Params) : p.resetPc.toNat % 2 = 0 := by
  rw [resetPc_toNat]
  exact Nat.mul_mod_right 2 _

/-- A launched machine is not halted and has IL = 0, so a request at its first boundary is accepted (R204). -/
theorem step_launch_of_request (l : Launch) (q : Irq) :
    step (State.launch { l with irq := .bit true q }) =
      .next (interruptEntry (passBoundary (State.launch { l with irq := .bit true q }))) :=
  step_eq_entry rfl rfl rfl

/-- Settles O46: RESET_PC is even by `resetPc_even`, the entry is `step_launch_of_request`, the rest is what a launch is. -/
theorem resetState : Obligations.ResetState :=
  ⟨rfl,
    fun l => ⟨rfl, resetPc_even l.params, rfl, rfl, fun q => ⟨_, step_launch_of_request l q, rfl, rfl⟩⟩,
    fun s _ => ⟨rfl, resetPc_even s.params, rfl, rfl, rfl⟩⟩

/-- Settles O53: a launch takes every field of the two invariants from its premises, but PC, which is RESET_PC. -/
theorem launchStartsTheInvariants : Obligations.LaunchStartsTheInvariants := fun l =>
  ⟨fun hpcsh hvector => (pcAligned_iff _).mpr ⟨resetPc_even l.params, hpcsh, hvector⟩,
    fun hcc hccsh => (flagsSound_iff _).mpr ⟨hcc, hccsh⟩⟩

end Sys2Proof.Proofs
end

section
/-! PROOFS. The data and program address spaces (spec/20_memory.md): the reasoning rules of a word access, free or of a
device, said once; then the statements about who writes which byte, the canonical memories and the
computed addresses. -/

namespace Sys2Proof.Proofs

open Machine Claims

/-! ### Bit 0 of an address (R12, R61) -/

theorem isFreeMemory_iff (a : Word) : isFreeMemory a = true ↔ a.toNat < 0x8000 := decide_eq_true_iff

theorem isFreeMemory_eq_false_iff (a : Word) : isFreeMemory a = false ↔ 0x8000 ≤ a.toNat := by
  rw [← Bool.not_eq_true, isFreeMemory_iff, Nat.not_lt]

theorem floorWord_eq_iff (a b : Word) : floorWord a = floorWord b ↔ a.toNat / 2 = b.toNat / 2 := by
  rw [← BitVec.toNat_inj, floorWord_toNat, floorWord_toNat, Nat.mul_left_inj two_ne_zero]

@[simp] theorem floorWord_floorWord (a : Word) : floorWord (floorWord a) = floorWord a := by
  rw [floorWord_eq_iff, floorWord_toNat, Nat.mul_div_cancel _ two_pos]

@[simp] theorem isFreeMemory_floorWord (a : Word) : isFreeMemory (floorWord a) = isFreeMemory a := by
  rw [Bool.eq_iff_iff, isFreeMemory_iff, isFreeMemory_iff, floorWord_toNat]
  omega

@[simp] theorem floorWord_effectiveAddress (s : State) (sr1 : Reg) (ofst6 : BitVec 6) :
    floorWord (effectiveAddress s sr1 ofst6) = effectiveAddress s sr1 ofst6 := floorWord_floorWord _

theorem memRead_floorWord (s : State) (a : Word) : memRead s (floorWord a) = memRead s a := by
  simp only [memRead, freeRead, isFreeMemory_floorWord, floorWord_floorWord]

theorem memWrite_floorWord (s : State) (a v : Word) : memWrite s (floorWord a) v = memWrite s a v := by
  simp only [memWrite, freeWrite, isFreeMemory_floorWord, floorWord_floorWord]

theorem progRead_floorWord (s : State) (a : Word) : progRead s (floorWord a) = progRead s a := by
  simp only [progRead, floorWord_floorWord]

theorem toNat_add_mod_two {v : Word} (w : Word) (hv : v.toNat % 2 = 0) : (w + v).toNat % 2 = w.toNat % 2 := by
  rw [BitVec.toNat_add]
  omega

theorem wordsToBytes_even (v : Word) : (wordsToBytes v).toNat % 2 = 0 := by
  simp only [wordsToBytes, BitVec.toNat_shiftLeft, Nat.shiftLeft_eq]
  omega

theorem nextPc_mod_two (s : State) : s.nextPc.toNat % 2 = s.pc.toNat % 2 := toNat_add_mod_two s.pc rfl

theorem branchTarget_mod_two (s : State) (imm8 : BitVec 8) : (branchTarget s imm8).toNat % 2 = s.pc.toNat % 2 :=
  (toNat_add_mod_two s.nextPc (wordsToBytes_even _)).trans (nextPc_mod_two s)

/-! ### A word access of free memory, and of a device -/

theorem memRead_of_free {a : Word} (s : State) (hfree : isFreeMemory a = true) :
    memRead s a = some (freeRead s a, s) := if_pos hfree

theorem memWrite_of_free {a : Word} (s : State) (v : Word) (hfree : isFreeMemory a = true) :
    memWrite s a v = some (freeWrite s a v) := if_pos hfree

theorem memRead_of_device {s : State} {a : Word} {st : Nat} (hfree : isFreeMemory a = false)
    (hst : s.periph = .device st) :
    memRead s a = some (Config.periphReadValue st (floorWord a),
      { s with periph := .device (Config.periphAfterRead st (floorWord a)) }) := by
  simp [memRead, hfree, hst]

theorem memWrite_of_device {s : State} {a : Word} {st : Nat} (v : Word) (hfree : isFreeMemory a = false)
    (hst : s.periph = .device st) :
    memWrite s a v = some { s with periph := .device (Config.periphAfterWrite st (floorWord a) v) } := by
  simp [memWrite, hfree, hst]

theorem freeRead_freeWrite_self (s : State) (a v : Word) : freeRead (freeWrite s a v) a = v := by
  simp [freeRead, dataByte_freeWrite]

/-- Words at different word addresses share no byte. -/
theorem freeRead_freeWrite_other (s : State) {a b : Word} (v : Word) (h : a.toNat / 2 ≠ b.toNat / 2) :
    freeRead (freeWrite s b v) a = freeRead s a := by
  have hbyte (k : Nat) (hk : k / 2 = a.toNat / 2) : dataByte (freeWrite s b v) k = dataByte s k := by
    rw [dataByte_freeWrite, floorWord_toNat, if_neg (by omega), if_neg (by omega)]
  rw [freeRead, freeRead, floorWord_toNat, hbyte _ (by omega), hbyte _ (by omega)]

/-- A data write changes at most the two bytes of its word. -/
theorem memWrite_dataByte {s t : State} {a v : Word} {k : Nat} (h : memWrite s a v = some t)
    (hlow : k ≠ (floorWord a).toNat) (hhigh : k ≠ (floorWord a).toNat + 1) : dataByte t k = dataByte s k := by
  obtain ⟨_, rfl⟩ | ⟨_, _, _, rfl⟩ := memWrite_cases h
  · rw [dataByte_freeWrite, if_neg hlow, if_neg hhigh]
  · rfl

/-! ### The memories a step leaves -/

theorem memRead_mem {s t : State} {a v : Word} (h : memRead s a = some (v, t)) : t.mem = s.mem := by
  rw [show t = _ from memRead_frame h]

theorem memRead_dataByte {s t : State} {a v : Word} (h : memRead s a = some (v, t)) (k : Nat) :
    dataByte t k = dataByte s k := by
  rw [show t = _ from memRead_frame h]
  rfl

theorem dataByte_congr {s t : State} (hmem : t.mem = s.mem) (hdraw : t.draw = s.draw) (k : Nat) :
    dataByte t k = dataByte s k := by
  rw [dataByte, dataByte, hmem, hdraw]

theorem progByte_congr {s t : State} (hprog : t.prog = s.prog) (hdraw : t.draw = s.draw) (k : Nat) :
    progByte t k = progByte s k := by
  rw [progByte, progByte, hprog, hdraw]

theorem exec_prog {i : Instr} {s t : State} (h : exec i s = .next t) : t.prog = s.prog := by
  rw [show t = _ from keepsUnwritable_exec h]

theorem exec_draw {i : Instr} {s t : State} (h : exec i s = .next t) : t.draw = s.draw := by
  rw [show t = _ from keepsUnwritable_exec h]

/-- A load reads without writing; the other instructions that do not store never reach the data space. -/
theorem exec_mem_of_not_stores {i : Instr} {s t : State} (h : exec i s = .next t) (hstores : stores i = false) :
    t.mem = s.mem := by
  cases i with
  | str => cases hstores
  | swp => cases hstores
  | ldr =>
    obtain ⟨v, u, hread, rfl⟩ := execLdr_eq_next_iff.mp h
    rw [State.advance_mem, State.setReg_mem, memRead_mem hread]
  | brc =>
    obtain rfl := Host.Outcome.next.inj ((execBrc_eq ..).symm.trans h)
    rfl
  | _ => obtain rfl := Host.Outcome.next.inj h; rfl

/-- The stores keep free memory canonical because `memWrite` does; the others leave it. -/
theorem wf_mem_exec {i : Instr} {s t : State} (hwf : Memory.wf 0x8000 s.mem = true) (h : exec i s = .next t) :
    Memory.wf 0x8000 t.mem = true := by
  cases i with
  | str =>
    obtain ⟨u, hwrite, rfl⟩ := execStr_eq_next_iff.mp h
    rw [State.advance_mem]
    exact memWrite_wf hwrite hwf
  | swp =>
    obtain ⟨v, u, w, hread, hwrite, rfl⟩ := execSwp_eq_next_iff.mp h
    rw [State.advance_mem, State.setReg_mem]
    exact memWrite_wf hwrite ((memRead_mem hread).symm ▸ hwf)
  | _ => rwa [exec_mem_of_not_stores h rfl]

theorem memoriesWf_iff (s : State) :
    Safety.memoriesWf s = true ↔
      Memory.wf 0x8000 s.mem = true ∧ Memory.wf 0x10000 s.prog = true ∧ Memory.wf 0x10000 s.storage = true := by
  simp only [Safety.memoriesWf, Bool.and_eq_true, and_assoc]

theorem memoriesWf_exec {i : Instr} {s t : State} (hwf : Safety.memoriesWf s = true) (h : exec i s = .next t) :
    Safety.memoriesWf t = true := by
  obtain ⟨hmem, hprog, hstorage⟩ := (memoriesWf_iff s).mp hwf
  rw [memoriesWf_iff, exec_prog h, exec_storage h]
  exact ⟨wf_mem_exec hmem h, hprog, hstorage⟩

/-- Settles O42: entry leaves the three lists, and an instruction keeps them canonical by `memoriesWf_exec`. -/
theorem stepKeepsMemoriesCanonical : Obligations.StepKeepsMemoriesCanonical := by
  intro s t hwf h
  obtain ⟨_, ⟨_, _, rfl⟩ | ⟨_, i, _, hexec⟩⟩ := step_cases h
  · exact hwf
  · exact memoriesWf_exec (s := passBoundary s) hwf hexec

/-- Settles O43: a launch takes the three lists as they are given, and those of reset are empty. -/
theorem resetMemoriesCanonical : Obligations.ResetMemoriesCanonical :=
  ⟨(memoriesWf_iff _).mpr ⟨wf_nil _, wf_nil _, wf_nil _⟩,
    fun _ hmem hprog hstorage => (memoriesWf_iff _).mpr ⟨hmem, hprog, hstorage⟩⟩

/-! ### Who writes which byte -/

theorem execStr_dataByte {src sr1 : Reg} {ofst6 : BitVec 6} {s t : State} {k : Nat}
    (h : execStr src sr1 ofst6 s = .next t) (hlow : k ≠ (effectiveAddress s sr1 ofst6).toNat)
    (hhigh : k ≠ (effectiveAddress s sr1 ofst6).toNat + 1) : dataByte t k = dataByte s k := by
  obtain ⟨u, hwrite, rfl⟩ := execStr_eq_next_iff.mp h
  rw [← floorWord_effectiveAddress] at hlow hhigh
  rw [State.advance_dataByte, memWrite_dataByte hwrite hlow hhigh]

theorem execSwp_dataByte {dst sr1 : Reg} {ofst6 : BitVec 6} {s t : State} {k : Nat}
    (h : execSwp dst sr1 ofst6 s = .next t) (hlow : k ≠ (effectiveAddress s sr1 ofst6).toNat)
    (hhigh : k ≠ (effectiveAddress s sr1 ofst6).toNat + 1) : dataByte t k = dataByte s k := by
  obtain ⟨v, u, w, hread, hwrite, rfl⟩ := execSwp_eq_next_iff.mp h
  rw [← floorWord_effectiveAddress] at hlow hhigh
  rw [State.advance_dataByte, State.setReg_dataByte, memWrite_dataByte hwrite hlow hhigh, memRead_dataByte hread]

/-- Settles O30: what does not store leaves the list of free memory, and the two stores are word writes at their
effective address. -/
theorem dataSpaceWriters : Obligations.DataSpaceWriters := by
  refine fun i s t h => ⟨fun hstores => dataByte_congr (exec_mem_of_not_stores h hstores) (exec_draw h), ?_⟩
  rintro r sr1 ofst6 (rfl | rfl) k hlow hhigh
  · exact execStr_dataByte h hlow hhigh
  · exact execSwp_dataByte h hlow hhigh

theorem step_prog {s t : State} (h : step s = .next t) : t.prog = s.prog := by
  obtain ⟨_, ⟨_, _, rfl⟩ | ⟨_, i, _, hexec⟩⟩ := step_cases h
  · rfl
  · exact exec_prog (s := passBoundary s) hexec

theorem step_params {s t : State} (h : step s = .next t) : t.params = s.params := by
  obtain ⟨_, ⟨_, _, rfl⟩ | ⟨_, i, _, hexec⟩⟩ := step_cases h
  · rfl
  · exact exec_params (s := passBoundary s) hexec

theorem step_draw {s t : State} (h : step s = .next t) : t.draw = s.draw := by
  obtain ⟨_, ⟨_, _, rfl⟩ | ⟨_, i, _, hexec⟩⟩ := step_cases h
  · rfl
  · exact exec_draw (s := passBoundary s) hexec

/-- Settles O31: a program byte is its cell in the list or PROGRAM's own in the draw, and a step keeps both. -/
theorem programSpaceConstant : Obligations.ProgramSpaceConstant := fun _ _ h =>
  ⟨progByte_congr (step_prog h) (step_draw h), step_prog h, step_storage h, step_params h, step_draw h⟩

/-! ### Addresses and targets -/

/-- Settles O33: every access is that of the floored address, which two addresses of one word share. -/
theorem addressBitZeroIgnored : Obligations.AddressBitZeroIgnored := by
  refine ⟨fun s a b v h => ?_, fun s sr1 imm5 => floorWord_even _, branchTarget_mod_two⟩
  rw [← floorWord_eq_iff] at h
  refine ⟨?_, ?_, ?_⟩
  · rw [← memRead_floorWord s a, h, memRead_floorWord]
  · rw [← memWrite_floorWord s a, h, memWrite_floorWord]
  · rw [← progRead_floorWord s a, h, progRead_floorWord]

theorem execBrc_keeps_parity (bn bz bp bc : Bool) (imm8 : BitVec 8) (s : State) :
    ∃ t, execBrc bn bz bp bc imm8 s = .next t ∧ t.pc.toNat % 2 = s.pc.toNat % 2 := by
  refine ⟨_, execBrc_eq .., ?_⟩
  rw [State.setPc_pc]
  split
  · exact branchTarget_mod_two s imm8
  · exact nextPc_mod_two s

/-- Settles O34: the two jumps go to floored targets, the branch keeps parity either way, the return copies PCsh. -/
theorem jumpTargetsEvenBranchKeepsParity : Obligations.JumpTargetsEvenBranchKeepsParity :=
  fun s _ _ _ bn bz bp bc imm8 =>
    ⟨⟨_, rfl, floorWord_even _⟩, ⟨_, rfl, floorWord_even _⟩, execBrc_keeps_parity bn bz bp bc imm8 s, ⟨_, rfl, rfl⟩⟩

/-- A base plus a doubled signed offset, modulo 2^16 (R9, R93). -/
theorem toNat_add_wordsToBytes (w v : Word) :
    ((w + wordsToBytes v).toNat : Int) = (w.toNat + 2 * v.toInt) % 65536 := by
  have hdouble : ((wordsToBytes v).toNat : Int) = 2 * v.toInt % 65536 := by
    rw [BitVec.toInt_eq_toNat_bmod]
    simp only [wordsToBytes, BitVec.toNat_shiftLeft, Nat.shiftLeft_eq, Int.bmod]
    omega
  rw [BitVec.toNat_add]
  omega

theorem sext6_toInt (v : BitVec 6) : (sext6 v).toInt = v.toInt := BitVec.toInt_signExtend_of_le (by decide)

/-- Settles O35: the sum is `toNat_add_wordsToBytes`, its floor `floorWord_toNat`, the range that of six signed bits. -/
theorem effectiveAddressComputed : Obligations.EffectiveAddressComputed := by
  intro s sr1 ofst6
  have hlow := BitVec.le_toInt ofst6
  have hhigh := BitVec.toInt_lt (x := ofst6)
  refine ⟨?_, by omega, by omega⟩
  rw [effectiveAddress, floorWord_toNat, dataAddress, ← sext6_toInt, ← toNat_add_wordsToBytes]
  omega

/-! ### Loads and stores -/

theorem execStr_of_free {src sr1 : Reg} {ofst6 : BitVec 6} {s : State}
    (hfree : isFreeMemory (effectiveAddress s sr1 ofst6) = true) :
    execStr src sr1 ofst6 s = .next (freeWrite s (effectiveAddress s sr1 ofst6) (s.reg src)).advance :=
  execStr_eq_next_iff.mpr ⟨_, memWrite_of_free _ _ hfree, rfl⟩

theorem execLdr_of_free {dst sr1 : Reg} {ofst6 : BitVec 6} {s : State}
    (hfree : isFreeMemory (effectiveAddress s sr1 ofst6) = true) :
    execLdr dst sr1 ofst6 s = .next (s.setReg dst (freeRead s (effectiveAddress s sr1 ofst6))).advance :=
  execLdr_eq_next_iff.mpr ⟨_, _, memRead_of_free _ hfree, rfl⟩

/-- Settles O48: the store writes no register, so the load is of the same word. -/
theorem loadSeesEarlierStore : Obligations.LoadSeesEarlierStore := by
  intro s src dst sr1 ofst6 h
  have hfree := (isFreeMemory_iff _).mpr h
  refine ⟨_, _, execStr_of_free hfree, execLdr_of_free hfree, ?_, fun a hne => ?_⟩
  · rw [State.advance_reg, State.reg_setReg_self]
    exact freeRead_freeWrite_self s _ _
  · exact freeRead_freeWrite_other s _ hne

/-- What only changes registers, PC and the device keeps the address spaces and the system state. -/
theorem keeps_withRegsPcPeriph (s : State) (regs : Vector Word 8) (pc : Word) (periph : Periph) :
    KeepsSpaces s { s with regs := regs, pc := pc, periph := periph } ∧
      KeepsSystem s { s with regs := regs, pc := pc, periph := periph } :=
  ⟨⟨fun _ => rfl, fun _ => rfl, rfl⟩, rfl, rfl, rfl, rfl, rfl, rfl, rfl⟩

section
variable {r sr1 : Reg} {ofst6 : BitVec 6} {s : State} {st : Nat}
  (hdevice : isFreeMemory (effectiveAddress s sr1 ofst6) = false) (hst : s.periph = .device st)
include hdevice hst

theorem execLdr_of_device :
    execLdr r sr1 ofst6 s = .next
      (({ s with periph := .device (Config.periphAfterRead st (effectiveAddress s sr1 ofst6)) } : State).setReg r
        (Config.periphReadValue st (effectiveAddress s sr1 ofst6))).advance := by
  have hread := memRead_of_device hdevice hst
  rw [floorWord_effectiveAddress] at hread
  exact execLdr_eq_next_iff.mpr ⟨_, _, hread, rfl⟩

theorem execStr_of_device :
    execStr r sr1 ofst6 s = .next
      ({ s with periph := .device (Config.periphAfterWrite st (effectiveAddress s sr1 ofst6) (s.reg r)) } :
        State).advance := by
  have hwrite := memWrite_of_device (s.reg r) hdevice hst
  rw [floorWord_effectiveAddress] at hwrite
  exact execStr_eq_next_iff.mpr ⟨_, hwrite, rfl⟩

/-- The write of a swap finds the device as its read left it. -/
theorem execSwp_of_device :
    execSwp r sr1 ofst6 s = .next
      (({ s with periph := .device (Config.periphAfterWrite
            (Config.periphAfterRead st (effectiveAddress s sr1 ofst6)) (effectiveAddress s sr1 ofst6) (s.reg r)) } :
          State).setReg r (Config.periphReadValue st (effectiveAddress s sr1 ofst6))).advance := by
  have hread := memRead_of_device hdevice hst
  rw [floorWord_effectiveAddress] at hread
  refine execSwp_eq_next_iff.mpr ⟨_, _, _, hread, memWrite_of_device _ hdevice rfl, ?_⟩
  rw [floorWord_effectiveAddress]

end

/-- Settles O17: a device answers every access of its half, and beside DST, PC and the device nothing is written. -/
theorem deviceAccessesComplete : Obligations.DeviceAccessesComplete := by
  rintro s r sr1 ofst6 st _ rfl hhalf hst
  have hdevice := (isFreeMemory_eq_false_iff _).mpr hhalf
  refine ⟨⟨_, execLdr_of_device hdevice hst, ?_⟩, ⟨_, execStr_of_device hdevice hst, ?_⟩,
    ⟨_, execSwp_of_device hdevice hst, ?_⟩⟩
  · exact ⟨State.reg_setReg_self .., rfl, fun _ => State.reg_setReg_other _ _, rfl, rfl, keeps_withRegsPcPeriph s _ _ _⟩
  · exact ⟨rfl, fun _ => rfl, rfl, rfl, keeps_withRegsPcPeriph s _ _ _⟩
  · exact ⟨State.reg_setReg_self .., rfl, fun _ => State.reg_setReg_other _ _, rfl, rfl, keeps_withRegsPcPeriph s _ _ _⟩

/-! ### Placing a word to be run -/

theorem progByte_loadProgWord_other (s : State) (a w : Word) {k : Nat} (hlow : k ≠ (floorWord a).toNat)
    (hhigh : k ≠ (floorWord a).toNat + 1) : progByte (loadProgWord s a w) k = progByte s k := by
  rw [progByte, progByte, loadProgWord_prog, memLookup_memInsertWord, if_neg hlow, if_neg hhigh, loadProgWord_draw]

/-- Settles O51: the state the instruction runs in is `withFetchWord`'s past its boundary. -/
theorem placedWordRunsNext : Obligations.PlacedWordRunsNext := by
  intro s w i hdecode hw
  have hmod : w % 2 ^ 16 = w := Nat.mod_eq_of_lt hw
  refine ⟨passBoundary (s.withFetchWord 16 w), step_withFetchWord s 16 w i (by rwa [hmod]), rfl, ?_,
    fun k hlow hhigh => progByte_loadProgWord_other s s.pc _ hlow hhigh⟩
  have hplaced := progRead_withFetchWord s 16 w
  rwa [hmod] at hplaced

end Sys2Proof.Proofs
end

section
/-! PROOFS. Words as numbers (spec/30_encoding.md): what each field of R81 reads, what each format of R82 to R91 and
each clearing of literal bits (R96) makes, counted in the weights of the fields' lowest bits. -/

namespace Sys2Proof.Proofs

open Machine Claims

/-! ### The fields (R81) -/

theorem toNat_extractLsb' (w : Word) (lo len : Nat) : (w.extractLsb' lo len).toNat = w.toNat / 2 ^ lo % 2 ^ len := by
  rw [BitVec.extractLsb'_toNat, Nat.shiftRight_eq_div_pow]

theorem toNat_extractLsb'_zero (w : Word) (len : Nat) : (w.extractLsb' 0 len).toNat = w.toNat % 2 ^ len := by
  rw [toNat_extractLsb', pow_zero, Nat.div_one]

theorem opcodeField_toNat (w : Word) : (opcodeField w).toNat = w.toNat / 4096 := by
  rw [opcodeField, toNat_extractLsb']
  omega

@[simp] theorem dstField_toNat (w : Word) : (dstField w).toNat = w.toNat / 512 % 8 := toNat_extractLsb' w 9 3
@[simp] theorem sr1Field_toNat (w : Word) : (sr1Field w).toNat = w.toNat / 64 % 8 := toNat_extractLsb' w 6 3
@[simp] theorem sr2Field_toNat (w : Word) : (sr2Field w).toNat = w.toNat % 8 := toNat_extractLsb'_zero w 3
@[simp] theorem imm4Field_toNat (w : Word) : (imm4Field w).toNat = w.toNat % 16 := toNat_extractLsb'_zero w 4
@[simp] theorem imm5Field_toNat (w : Word) : (imm5Field w).toNat = w.toNat % 32 := toNat_extractLsb'_zero w 5
@[simp] theorem ofst6Field_toNat (w : Word) : (ofst6Field w).toNat = w.toNat % 64 := toNat_extractLsb'_zero w 6
@[simp] theorem imm8Field_toNat (w : Word) : (imm8Field w).toNat = w.toNat % 256 := toNat_extractLsb'_zero w 8
@[simp] theorem rrLiteral_toNat (w : Word) : (rrLiteral w).toNat = w.toNat / 8 % 4 := toNat_extractLsb' w 3 2
@[simp] theorem zLiteral_toNat (w : Word) : (zLiteral w).toNat = w.toNat % 4096 := toNat_extractLsb'_zero w 12

@[simp] theorem bitField_toNat (w : Word) (k : Nat) : (bitField w k).toNat = w.toNat / 2 ^ k % 2 :=
  Nat.toNat_testBit w.toNat k

theorem bitField_eq_iff (w : Word) (k : Nat) (b : Bool) : bitField w k = b ↔ w.toNat / 2 ^ k % 2 = b.toNat := by
  rw [← bitField_toNat]
  cases bitField w k <;> cases b <;> decide

/-! ### The formats (R82 to R91) -/

/-- An append counts its left part in units of its right part's size. -/
theorem toNat_append_eq {v w : Nat} (x : BitVec v) (y : BitVec w) : (x ++ y).toNat = x.toNat * 2 ^ w + y.toNat := by
  rw [BitVec.toNat_append, ← Nat.shiftLeft_add_eq_or_of_lt y.isLt, Nat.shiftLeft_eq]

@[simp] theorem flagBit_toNat (b : Bool) : (flagBit b).toNat = b.toNat := by
  cases b
  · rfl
  · rfl

@[simp] theorem formatRR_toNat (op : BitVec 4) (dst sr1 sr2 : Reg) :
    (formatRR op dst sr1 sr2).toNat = op.toNat * 4096 + dst.toNat * 512 + sr1.toNat * 64 + sr2.toNat := by
  simp only [formatRR, toNat_append_eq, BitVec.toNat_ofNat]
  omega

@[simp] theorem formatRI5_toNat (op : BitVec 4) (dst sr1 : Reg) (imm5 : BitVec 5) :
    (formatRI5 op dst sr1 imm5).toNat = op.toNat * 4096 + 32 + dst.toNat * 512 + sr1.toNat * 64 + imm5.toNat := by
  simp only [formatRI5, toNat_append_eq, BitVec.toNat_ofNat]
  omega

@[simp] theorem formatRI4_toNat (op : BitVec 4) (dst sr1 : Reg) (imm4 : BitVec 4) :
    (formatRI4 op dst sr1 imm4).toNat = op.toNat * 4096 + 32 + dst.toNat * 512 + sr1.toNat * 64 + imm4.toNat := by
  simp only [formatRI4, toNat_append_eq, BitVec.toNat_ofNat]
  omega

@[simp] theorem formatSRR_toNat (op : BitVec 4) (dst sr1 : Reg) (a : Bool) (sr2 : Reg) :
    (formatSRR op dst sr1 a sr2).toNat =
      op.toNat * 4096 + dst.toNat * 512 + sr1.toNat * 64 + a.toNat * 16 + sr2.toNat := by
  simp only [formatSRR, toNat_append_eq, flagBit_toNat, BitVec.toNat_ofNat]
  omega

@[simp] theorem formatSRI_toNat (op : BitVec 4) (dst sr1 : Reg) (a : Bool) (imm4 : BitVec 4) :
    (formatSRI op dst sr1 a imm4).toNat =
      op.toNat * 4096 + 32 + dst.toNat * 512 + sr1.toNat * 64 + a.toNat * 16 + imm4.toNat := by
  simp only [formatSRI, toNat_append_eq, flagBit_toNat, BitVec.toNat_ofNat]
  omega

@[simp] theorem formatLI_toNat (op : BitVec 4) (dst : Reg) (s : Bool) (imm8 : BitVec 8) :
    (formatLI op dst s imm8).toNat = op.toNat * 4096 + dst.toNat * 512 + s.toNat * 256 + imm8.toNat := by
  simp only [formatLI, toNat_append_eq, flagBit_toNat]
  omega

@[simp] theorem formatM_toNat (op : BitVec 4) (dst sr1 : Reg) (ofst6 : BitVec 6) :
    (formatM op dst sr1 ofst6).toNat = op.toNat * 4096 + dst.toNat * 512 + sr1.toNat * 64 + ofst6.toNat := by
  simp only [formatM, toNat_append_eq]
  omega

@[simp] theorem formatB_toNat (op : BitVec 4) (bn bz bp bc : Bool) (imm8 : BitVec 8) :
    (formatB op bn bz bp bc imm8).toNat =
      op.toNat * 4096 + bn.toNat * 2048 + bz.toNat * 1024 + bp.toNat * 512 + bc.toNat * 256 + imm8.toNat := by
  simp only [formatB, toNat_append_eq, flagBit_toNat]
  omega

@[simp] theorem formatJ_toNat (op : BitVec 4) (sr1 : Reg) (r : Bool) (imm5 : BitVec 5) :
    (formatJ op sr1 r imm5).toNat = op.toNat * 4096 + r.toNat * 32 + sr1.toNat * 64 + imm5.toNat := by
  simp only [formatJ, toNat_append_eq, flagBit_toNat, BitVec.toNat_ofNat]
  omega

@[simp] theorem formatJL_toNat (op : BitVec 4) (dst sr1 : Reg) (imm5 : BitVec 5) :
    (formatJL op dst sr1 imm5).toNat = op.toNat * 4096 + dst.toNat * 512 + sr1.toNat * 64 + imm5.toNat := by
  simp only [formatJL, toNat_append_eq, BitVec.toNat_ofNat]
  omega

@[simp] theorem formatZ_toNat (op : BitVec 4) : (formatZ op).toNat = op.toNat * 4096 := by
  simp only [formatZ, toNat_append_eq, BitVec.toNat_ofNat]
  omega

theorem encode_toNat (i : Instr) : (encode i).toNat = wordNumber i := by
  cases i <;> simp [encode, wordNumber]

/-! ### Clearing literal bits (R96) -/

/-- Clearing the `len` bits from bit `lo` on keeps the number above and below them. -/
theorem toNat_and_of_clears {w m : Word} (lo len : Nat)
    (hm : ∀ k < 16, m.getLsbD k = (decide (k < lo) || decide (lo + len ≤ k))) :
    (w &&& m).toNat = w.toNat / 2 ^ (lo + len) * 2 ^ (lo + len) + w.toNat % 2 ^ lo := by
  have hlow : w.toNat % 2 ^ lo < 2 ^ (lo + len) :=
    (Nat.mod_lt _ (Nat.two_pow_pos lo)).trans_le (Nat.pow_le_pow_right two_pos (Nat.le_add_right lo len))
  apply Nat.eq_of_testBit_eq
  intro k
  have hbit : (w &&& m).getLsbD k = (w.getLsbD k && (decide (k < lo) || decide (lo + len ≤ k))) := by
    by_cases hk : k < 16
    · rw [BitVec.getLsbD_and, hm k hk]
    · simp [BitVec.getLsbD_of_ge _ _ (Nat.le_of_not_lt hk)]
  rw [BitVec.testBit_toNat, hbit, Nat.mul_comm, Nat.testBit_two_pow_mul_add _ hlow, Nat.testBit_mod_two_pow,
    Nat.testBit_div_two_pow, BitVec.testBit_toNat, BitVec.testBit_toNat]
  split
  · rename_i hk
    rw [decide_eq_false (Nat.not_le_of_lt hk), Bool.or_false, Bool.and_comm]
  · rename_i hk
    have hle := Nat.le_of_not_lt hk
    rw [Nat.sub_add_cancel hle, decide_eq_true hle, Bool.or_true, Bool.and_true]

theorem toNat_and_F000 (w : Word) : (w &&& 0xF000#16).toNat = w.toNat / 4096 * 4096 := by
  rw [toNat_and_of_clears 0 12 (by decide)]
  omega

theorem toNat_and_F1FF (w : Word) : (w &&& 0xF1FF#16).toNat = w.toNat / 4096 * 4096 + w.toNat % 512 :=
  toNat_and_of_clears 9 3 (by decide)

theorem toNat_and_FFDF (w : Word) : (w &&& 0xFFDF#16).toNat = w.toNat / 64 * 64 + w.toNat % 32 :=
  toNat_and_of_clears 5 1 (by decide)

theorem toNat_and_FFE7 (w : Word) : (w &&& 0xFFE7#16).toNat = w.toNat / 32 * 32 + w.toNat % 8 :=
  toNat_and_of_clears 3 2 (by decide)

theorem toNat_and_FFEF (w : Word) : (w &&& 0xFFEF#16).toNat = w.toNat / 32 * 32 + w.toNat % 16 :=
  toNat_and_of_clears 4 1 (by decide)

theorem toNat_and_FFF7 (w : Word) : (w &&& 0xFFF7#16).toNat = w.toNat / 16 * 16 + w.toNat % 8 :=
  toNat_and_of_clears 3 1 (by decide)

theorem and_FFFF (w : Word) : w &&& 0xFFFF#16 = w := BitVec.and_allOnes

theorem and_F000_eq_self_iff (w : Word) : w &&& 0xF000#16 = w ↔ zLiteral w = 0#12 := by
  rw [← BitVec.toNat_inj, toNat_and_F000, ← BitVec.toNat_inj, zLiteral_toNat, BitVec.toNat_ofNat]
  omega

theorem and_F1FF_eq_self_iff (w : Word) : w &&& 0xF1FF#16 = w ↔ dstField w = 0#3 := by
  rw [← BitVec.toNat_inj, toNat_and_F1FF, ← BitVec.toNat_inj, dstField_toNat, BitVec.toNat_ofNat]
  omega

theorem and_FFDF_eq_self_iff (w : Word) : w &&& 0xFFDF#16 = w ↔ bitField w 5 = false := by
  rw [← BitVec.toNat_inj, toNat_and_FFDF, bitField_eq_iff, Bool.toNat_false]
  omega

theorem and_FFE7_eq_self_iff (w : Word) : w &&& 0xFFE7#16 = w ↔ rrLiteral w = 0#2 := by
  rw [← BitVec.toNat_inj, toNat_and_FFE7, ← BitVec.toNat_inj, rrLiteral_toNat, BitVec.toNat_ofNat]
  omega

theorem and_FFEF_eq_self_iff (w : Word) : w &&& 0xFFEF#16 = w ↔ bitField w 4 = false := by
  rw [← BitVec.toNat_inj, toNat_and_FFEF, bitField_eq_iff, Bool.toNat_false]
  omega

theorem and_FFF7_eq_self_iff (w : Word) : w &&& 0xFFF7#16 = w ↔ bitField w 3 = false := by
  rw [← BitVec.toNat_inj, toNat_and_FFF7, bitField_eq_iff, Bool.toNat_false]
  omega

end Sys2Proof.Proofs
end

section
/-! PROOFS. The decoder and the encoder against the opcode map (spec/30_encoding.md R92 to R96). A word is defined iff
it needs no correction of literal bits: the reserved classes, the rows of the map and the words of instructions are all
compared with `literalBitsCorrected`. Then the immediates (R93) and the step on a reserved word (R96). -/

namespace Sys2Proof.Proofs

open Machine Claims

/-! ### What a row of the opcode map fixes -/

theorem and_mask_of_accepts {r : Row} {w : Word} (h : r.accepts w = true) : w &&& r.mask = r.pattern := eq_of_beq h

/-- Every row's mask covers the opcode. -/
theorem opcodeField_of_accepts {r : Row} {w : Word} (hr : r ∈ opcodeRows) (h : r.accepts w = true) :
    opcodeField w = opcodeField r.pattern := by
  have hmask : ∀ r ∈ opcodeRows, r.mask.extractLsb' 12 4 = BitVec.allOnes 4 := by decide
  rw [← and_mask_of_accepts h, opcodeField, opcodeField, BitVec.extractLsb'_and, hmask r hr, BitVec.and_allOnes]

theorem bitField_of_accepts {r : Row} {w : Word} (h : r.accepts w = true) (k : Nat) (hmask : r.mask.getLsbD k = true) :
    bitField w k = r.pattern.getLsbD k := by
  rw [← and_mask_of_accepts h, BitVec.getLsbD_and, hmask, Bool.and_true, bitField]

theorem row_mem_opcodeRows (i : Instr) : i.row ∈ opcodeRows := by
  cases i <;> simp [Instr.row, opcodeRows, opcodeRowsLow, opcodeRowsHigh]

theorem accepts_encode (i : Instr) : i.row.accepts (encode i) = true := by
  cases i with
  | nop => exact Laws.EncodedInRow.nop
  | swp => exact Laws.EncodedInRow.swp ..
  | brc => exact Laws.EncodedInRow.brc ..
  | hlt => exact Laws.EncodedInRow.hlt
  | str => exact Laws.EncodedInRow.str ..
  | ldr => exact Laws.EncodedInRow.ldr ..
  | jpr => exact Laws.EncodedInRow.jpr ..
  | jprReturn => exact Laws.EncodedInRow.jprReturn ..
  | jlr => exact Laws.EncodedInRow.jlr ..
  | addReg => exact Laws.EncodedInRow.addReg ..
  | addImm => exact Laws.EncodedInRow.addImm ..
  | subReg => exact Laws.EncodedInRow.subReg ..
  | subImm => exact Laws.EncodedInRow.subImm ..
  | lbi => exact Laws.EncodedInRow.lbi ..
  | xorReg => exact Laws.EncodedInRow.xorReg ..
  | xorImm => exact Laws.EncodedInRow.xorImm ..
  | shlReg => exact Laws.EncodedInRow.shlReg ..
  | shlImm => exact Laws.EncodedInRow.shlImm ..
  | shrReg => exact Laws.EncodedInRow.shrReg ..
  | shrImm => exact Laws.EncodedInRow.shrImm ..
  | orrReg => exact Laws.EncodedInRow.orrReg ..
  | orrImm => exact Laws.EncodedInRow.orrImm ..
  | andReg => exact Laws.EncodedInRow.andReg ..
  | andImm => exact Laws.EncodedInRow.andImm ..

/-- Where two patterns differ on a bit both masks cover, no word is of both rows. -/
theorem not_accepts_both {a b : Row} {w : Word} (h : a.pattern &&& b.mask ≠ b.pattern &&& a.mask) :
    ¬ (a.accepts w = true ∧ b.accepts w = true) := by
  rintro ⟨ha, hb⟩
  apply h
  rw [← and_mask_of_accepts ha, ← and_mask_of_accepts hb, BitVec.and_assoc, BitVec.and_assoc, BitVec.and_comm a.mask]

/-- Settles O3: each two of the rows differ on a bit both masks cover. -/
theorem opcodeRowsDisjoint : Obligations.OpcodeRowsDisjoint := by
  have hclash : opcodeRows.Pairwise (fun a b => a.pattern &&& b.mask ≠ b.pattern &&& a.mask) := by decide
  exact ⟨rfl, hclash.imp fun h _ => not_accepts_both h⟩

/-! ### The literal bits of a word -/

/-- The mask that keeps every bit but the literal bits R96 lists for an opcode and a selector bit. -/
def literalMask (op : Nat) (sel : Bool) : Word :=
  match op with
  | 0 | 3 => 0xF000#16
  | 6 => 0xF1FF#16
  | 7 => 0xFFDF#16
  | 8 | 9 | 11 | 14 | 15 => if sel then 0xFFFF#16 else 0xFFE7#16
  | 12 => if sel then 0xFFEF#16 else 0xFFE7#16
  | 13 => if sel then 0xFFFF#16 else 0xFFF7#16
  | _ => 0xFFFF#16

theorem literalBitsCorrected_eq (w : Word) :
    literalBitsCorrected w = w &&& literalMask (opcodeField w).toNat (bitField w 5) := by
  unfold literalBitsCorrected literalMask opcodeField bitField
  have hlt := (w.extractLsb' 12 4).isLt
  generalize (w.extractLsb' 12 4).toNat = op at hlt
  interval_cases op <;> simp only [apply_ite (w &&& ·), and_FFFF]

theorem literalMask_opcode (op : Nat) (sel : Bool) : (literalMask op sel).extractLsb' 12 4 = BitVec.allOnes 4 := by
  unfold literalMask
  cases sel <;> split <;> decide

theorem opcodeField_literalBitsCorrected (w : Word) : opcodeField (literalBitsCorrected w) = opcodeField w := by
  rw [literalBitsCorrected_eq, opcodeField, BitVec.extractLsb'_and, literalMask_opcode, BitVec.and_allOnes, opcodeField]

/-- The classes of R95 are the words with a literal bit wrong, opcode by opcode for each selector bit. -/
theorem literalBitsCorrected_eq_self_iff (w : Word) : literalBitsCorrected w = w ↔ reservedClass w = none := by
  have hlt := (opcodeField w).isLt
  rw [literalBitsCorrected_eq]
  unfold reservedClass
  generalize (opcodeField w).toNat = op at hlt
  cases hsel : bitField w 5
  all_goals
    interval_cases op <;>
      simp [literalMask, hsel, and_FFFF, and_F000_eq_self_iff, and_F1FF_eq_self_iff, and_FFDF_eq_self_iff,
        and_FFE7_eq_self_iff, and_FFEF_eq_self_iff, and_FFF7_eq_self_iff]

/-- Each row asks for every literal bit of its opcode and selector, at the value of the correction. -/
theorem opcodeRows_cover_literalBits :
    ∀ r ∈ opcodeRows, ∀ sel, (r.mask.getLsbD 5 = true → sel = r.pattern.getLsbD 5) →
      ~~~literalMask (opcodeField r.pattern).toNat sel &&& r.mask = ~~~literalMask (opcodeField r.pattern).toNat sel ∧
        r.pattern &&& literalMask (opcodeField r.pattern).toNat sel = r.pattern := by
  decide

/-- A word with the pattern's bits under `mask` has no bit that `m` clears, if `mask` covers all those and the pattern
has none of them. -/
theorem and_eq_self_of_covered {w mask pattern m : Word} (hw : w &&& mask = pattern) (hcover : ~~~m &&& mask = ~~~m)
    (hpattern : pattern &&& m = pattern) : w &&& m = w := by
  have hbool : ∀ a b c : Bool, (!c && b) = !c → (a && b && c) = (a && b) → (a && c) = a := by decide
  subst hw
  ext k hk
  have hcoverBit := congrArg (·[k]) hcover
  have hpatternBit := congrArg (·[k]) hpattern
  simp only [BitVec.getElem_and, BitVec.getElem_not] at hcoverBit hpatternBit ⊢
  exact hbool _ _ _ hcoverBit hpatternBit

theorem literalBitsCorrected_of_accepts {r : Row} {w : Word} (hr : r ∈ opcodeRows) (h : r.accepts w = true) :
    literalBitsCorrected w = w := by
  obtain ⟨hcover, hpattern⟩ := opcodeRows_cover_literalBits r hr (bitField w 5) (bitField_of_accepts h 5)
  rw [literalBitsCorrected_eq, opcodeField_of_accepts hr h]
  exact and_eq_self_of_covered (and_mask_of_accepts h) hcover hpattern

@[simp] theorem literalBitsCorrected_encode (i : Instr) : literalBitsCorrected (encode i) = encode i :=
  literalBitsCorrected_of_accepts (row_mem_opcodeRows i) (accepts_encode i)

/-! ### Fields and word determine each other -/

/-- The opcode and the selector of an instruction's word are those of its row, and each field is the word's number
divided by its weight. -/
@[simp] theorem decodeFields_encode (i : Instr) : decodeFields (encode i) = i := by
  have hnumber := encode_toNat i
  have haccepts := accepts_encode i
  have hop := congrArg BitVec.toNat (opcodeField_of_accepts (row_mem_opcodeRows i) haccepts)
  rw [opcodeField_toNat i.row.pattern] at hop
  generalize encode i = w at hnumber haccepts hop
  cases i with
  | nop | hlt => simp [decodeFields, hop, Instr.row]
  | swp | str | ldr | jlr =>
    simp [decodeFields, hop, Instr.row, ← BitVec.toNat_inj, hnumber, wordNumber]
    omega
  | lbi dst s imm8 =>
    have hs := s.toNat_le
    simp [decodeFields, hop, Instr.row, ← BitVec.toNat_inj, bitField_eq_iff, hnumber, wordNumber]
    omega
  | brc bn bz bp bc imm8 =>
    have hn := bn.toNat_le
    have hz := bz.toNat_le
    have hp := bp.toNat_le
    have hc := bc.toNat_le
    simp [decodeFields, hop, Instr.row, ← BitVec.toNat_inj, bitField_eq_iff, hnumber, wordNumber]
    omega
  | addReg | addImm | subReg | subImm | xorReg | xorImm | shlReg | shlImm | orrReg | orrImm | andReg | andImm | jpr
  | jprReturn =>
    have hsel := bitField_of_accepts haccepts 5 (by simp [Instr.row])
    simp [decodeFields, hop, hsel, Instr.row, ← BitVec.toNat_inj, hnumber, wordNumber]
    omega
  | shrReg dst sr1 a sr2 | shrImm dst sr1 a imm4 =>
    have hsel := bitField_of_accepts haccepts 5 (by simp [Instr.row])
    have ha := a.toNat_le
    simp [decodeFields, hop, hsel, Instr.row, ← BitVec.toNat_inj, bitField_eq_iff, hnumber,
      wordNumber]
    omega

/-- Encoding what `ignore_bits` reads gives the word back but for its literal bits, opcode by opcode for each selector
bit: both sides count the same fields. -/
theorem encode_decodeFields (w : Word) : encode (decodeFields w) = literalBitsCorrected w := by
  apply BitVec.eq_of_toNat_eq
  rw [encode_toNat, literalBitsCorrected_eq]
  have hlt := (opcodeField w).isLt
  have hopNumber := opcodeField_toNat w
  have hselNumber := bitField_toNat w 5
  generalize hop : (opcodeField w).toNat = op at hlt hopNumber ⊢
  cases hsel : bitField w 5
  all_goals
    rw [hsel] at hselNumber
    interval_cases op
  all_goals
    simp [-BitVec.toNat_and, decodeFields, wordNumber, hop, hsel, literalMask, and_FFFF,
      toNat_and_F000, toNat_and_F1FF, toNat_and_FFDF, toNat_and_FFE7, toNat_and_FFEF, toNat_and_FFF7] at hselNumber ⊢
    omega

/-! ### The decoder -/

theorem wellFormed_iff (w : Word) : Word.wellFormed w = true ↔ literalBitsCorrected w = w := by
  rw [Word.wellFormed, List.any_eq_true]
  constructor
  · rintro ⟨r, hr, haccepts⟩
    exact literalBitsCorrected_of_accepts hr haccepts
  · intro h
    have haccepts := accepts_encode (decodeFields w)
    rw [encode_decodeFields, h] at haccepts
    exact ⟨_, row_mem_opcodeRows _, haccepts⟩

theorem decode_of_wellFormed {w : Word} (h : Word.wellFormed w = true) : decode w = .ok (decodeFields w) := by
  rw [decode, (literalBitsCorrected_eq_self_iff w).mp ((wellFormed_iff w).mp h)]

theorem decode_of_not_wellFormed {w : Word} (h : Word.wellFormed w = false) :
    ∃ r, decode w = .error (.reserved r) := by
  rw [← Bool.not_eq_true, wellFormed_iff, literalBitsCorrected_eq_self_iff] at h
  obtain ⟨r, hr⟩ := Option.ne_none_iff_exists'.mp h
  exact ⟨r, by rw [decode, hr]⟩

@[simp] theorem wellFormed_encode (i : Instr) : Word.wellFormed (encode i) = true :=
  (wellFormed_iff _).mpr (literalBitsCorrected_encode i)

@[simp] theorem decode_encode (i : Instr) : decode (encode i) = .ok i := by
  rw [decode_of_wellFormed (wellFormed_encode i), decodeFields_encode]

theorem decode_eq_ok_iff (w : Word) (i : Instr) : decode w = .ok i ↔ encode i = w := by
  constructor
  · intro h
    cases hw : Word.wellFormed w with
    | true =>
      rw [decode_of_wellFormed hw] at h
      rw [← Except.ok.inj h, encode_decodeFields, (wellFormed_iff w).mp hw]
    | false =>
      obtain ⟨r, hr⟩ := decode_of_not_wellFormed hw
      cases h.symm.trans hr
  · rintro rfl
    exact decode_encode i

theorem decodeBytes_wordBytes (w : Word) (rest : List Byte) :
    decodeBytes (wordBytes w ++ rest) = (decode w).map (fun i => (i, rest)) := by
  simp [decodeBytes, wordBytes]

/-- Settles O1: the word of an instruction is well formed, so decoding reads its fields, which are the instruction's. -/
theorem decodeOfEncode : Obligations.DecodeOfEncode := by
  refine fun i => ⟨decode_encode i, fun rest => ?_⟩
  rw [decodeBytes_wordBytes, decode_encode]
  rfl

/-- Settles O2: a well-formed word decodes and the others are reserved; what a word decodes to encodes as the word. -/
theorem decodeIsTheOpcodeMap : Obligations.DecodeIsTheOpcodeMap := by
  intro w
  refine ⟨⟨?_, fun h => ⟨_, decode_of_wellFormed h⟩⟩, ⟨?_, decode_of_not_wellFormed⟩, fun i h => ?_⟩
  · rintro ⟨i, h⟩
    rw [← (decode_eq_ok_iff w i).mp h, wellFormed_encode]
  · rintro ⟨r, h⟩
    cases hw : Word.wellFormed w with
    | true => cases h.symm.trans (decode_of_wellFormed hw)
    | false => rfl
  · obtain rfl := (decode_eq_ok_iff w i).mp h
    exact ⟨row_mem_opcodeRows i, accepts_encode i, rfl⟩

/-- Settles O4: the corrected word is the encoding of what `ignore_bits` reads (`encode_decodeFields`), so it decodes to
that, and its row has the word's opcode, which the correction keeps. -/
theorem ignoreBitsDecodesByOpcode : Obligations.IgnoreBitsDecodesByOpcode := by
  refine fun w => ⟨⟨decodeFields w, rfl, ?_, ?_, fun j hj => ?_⟩, (wellFormed_iff w).mp, rfl⟩
  · rw [← encode_decodeFields, decode_encode]
  · have hop := opcodeField_of_accepts (row_mem_opcodeRows _) (accepts_encode (decodeFields w))
    rw [encode_decodeFields, opcodeField_literalBitsCorrected] at hop
    exact hop.symm
  · rw [← (decode_eq_ok_iff w j).mp hj, decodeFields_encode]

/-- Settles O52: a word decodes to the instruction whose word it is, and that word's number is `encode_toNat`. -/
theorem fieldsStandWhereTheFormatsPutThem : Obligations.FieldsStandWhereTheFormatsPutThem := by
  intro i w
  rw [decode_eq_ok_iff, ← BitVec.toNat_inj, encode_toNat, eq_comm]

/-! ### Immediates (R93) -/

/-- Doubling loses nothing in the range of the widest signed field. -/
theorem wordsToBytes_toInt {v : Word} (hlow : -128 ≤ v.toInt) (hhigh : v.toInt < 128) :
    (wordsToBytes v).toInt = 2 * v.toInt := by
  rw [BitVec.toInt_eq_toNat_bmod] at hlow hhigh ⊢
  rw [BitVec.toInt_eq_toNat_bmod]
  simp only [wordsToBytes, BitVec.toNat_shiftLeft, Nat.shiftLeft_eq, Int.bmod] at hlow hhigh ⊢
  omega

/-- What R93 says of a signed field of `k` bits: its value, its range, and its value in bytes. -/
theorem signedField_extends {k : Nat} (v : BitVec k) (hk : k ≤ 8) :
    (v.signExtend 16).toInt = v.toInt ∧ -2 ^ (k - 1) ≤ v.toInt ∧ v.toInt ≤ 2 ^ (k - 1) - 1 ∧
      (wordsToBytes (v.signExtend 16)).toInt = 2 * v.toInt := by
  have hlow := BitVec.le_toInt v
  have hhigh := BitVec.toInt_lt (x := v)
  have hvalue : (v.signExtend 16).toInt = v.toInt := BitVec.toInt_signExtend_of_le (hk.trans (by decide))
  have hrange : (2 : Int) ^ (k - 1) ≤ 2 ^ 7 := pow_le_pow_right₀ (by decide) (by omega)
  have hbytes := wordsToBytes_toInt (v := v.signExtend 16) (by omega) (by omega)
  exact ⟨hvalue, hlow, by omega, by rw [hbytes, hvalue]⟩

/-- Settles O6: the places are the fields as numbers, the signed fields `signedField_extends` at 5, 6 and 8 bits. -/
theorem immediatesExtendAsTheSpecSays : Obligations.ImmediatesExtendAsTheSpecSays :=
  ⟨fun w => ⟨imm5Field_toNat w, imm4Field_toNat w, ofst6Field_toNat w, imm8Field_toNat w⟩,
    fun v => signedField_extends v (by decide), fun v => signedField_extends v (by decide),
    fun v => signedField_extends v (by decide), fun _ => BitVec.toNat_setWidth_of_le (by decide),
    fun _ => BitVec.toNat_setWidth_of_le (by decide)⟩

/-! ### A reserved word at PC (R96) -/

theorem step_eq_refused {s : State} {e : DecodeError} (hhl : s.hl = false)
    (hno : (irqNow s && acceptsInterrupt s) = false) (hfetch : fetch s = .error e) :
    step s = .refused (.reservedEncoding (progRead s s.pc)) := by
  simp [step, hhl, hno, hfetch]

/-- An instruction is refused, if at all, for its data address. -/
theorem exec_ne_reservedEncoding (i : Instr) (s : State) (w : Word) : exec i s ≠ .refused (.reservedEncoding w) := by
  cases i with
  | ldr =>
    rw [exec, execLdr]
    split
    · exact nofun
    · simp
  | str =>
    rw [exec, execStr]
    split
    · exact nofun
    · simp
  | swp =>
    rw [exec, execSwp]
    split
    · split
      · exact nofun
      · simp
    · simp
  | _ => exact nofun

theorem step_ne_reservedEncoding {s : State} {i : Instr} (hfetch : fetch s = .ok i) (w : Word) :
    step s ≠ .refused (.reservedEncoding w) := by
  unfold step
  rw [hfetch]
  split
  · exact nofun
  · split
    · exact nofun
    · exact exec_ne_reservedEncoding i _ w

/-- Settles O41: under `refuse` the fetch of a reserved word fails, under `ignore_bits` no fetch does. -/
theorem reservedWordStops : Obligations.ReservedWordStops := by
  refine ⟨fun s hhl hno hpolicy hreserved => ?_, fun s hpolicy w => ?_⟩
  · obtain ⟨r, hr⟩ := decode_of_not_wellFormed hreserved
    have hfetch : fetch s = .error (.reserved r) := by rw [fetch, hpolicy, decodeUnder, hr]
    exact step_eq_refused hhl hno hfetch
  · have hfetch : fetch s = .ok (decodeFields (progRead s s.pc)) := by rw [fetch, hpolicy, decodeUnder]
    exact step_ne_reservedEncoding hfetch w

end Sys2Proof.Proofs
end

section
/-! PROOFS. SUB's result and carry as numbers (spec/42_arith.md R132), and the comparisons a branch after it makes
(spec/30_encoding.md R103, spec/90_conflicts.md C8). -/

namespace Sys2Proof.Proofs

open Machine Claims

theorem subSum_toNat (a b : Word) : (subSum a b).toNat = b.toNat + 65536 - a.toNat := by
  simp [subSum, sum17]
  omega

theorem sumWord_subSum (a b : Word) : sumWord (subSum a b) = b - a := by
  apply BitVec.eq_of_toNat_eq
  rw [sumWord, BitVec.toNat_setWidth, subSum_toNat, BitVec.toNat_sub]
  omega

/-- The carry of SUB is "no borrow" (D5). -/
theorem sumCarry_subSum (a b : Word) : sumCarry (subSum a b) = true ↔ a.toNat ≤ b.toNat := by
  rw [sumCarry, BitVec.getLsbD, Nat.testBit_eq_decide_div_mod_eq, subSum_toNat, decide_eq_true_iff]
  omega

theorem exec_subReg (rt rx ry : Reg) (s : State) :
    exec (.subReg rt rx ry) s =
      .next (writeResult s rt (s.reg ry - s.reg rx) (sumCarry (subSum (s.reg rx) (s.reg ry)))) := by
  rw [← sumWord_subSum]
  rfl

theorem toInt_sub_eq_zero_iff (x y : Word) : (y - x).toInt = 0 ↔ x = y := by
  rw [← BitVec.toInt_zero, BitVec.toInt_inj, eq_comm (a := x)]
  exact sub_eq_zero

/-- C8: where the difference fits in 16 signed bits, the stored result is the difference. -/
theorem toInt_sub_of_fits {x y : Word} (hlow : -32768 ≤ y.toInt - x.toInt) (hhigh : y.toInt - x.toInt ≤ 32767) :
    (y - x).toInt = y.toInt - x.toInt := by
  rw [BitVec.toInt_sub]
  exact Int.bmod_eq_of_le hlow (Int.lt_add_one_of_le hhigh)

section
variable {x y : Word} {cc : Cc} (hsign : SignFlags (y - x) cc)
include hsign

theorem branchTaken_unsigned (hc : cc.c = true ↔ x.toNat ≤ y.toNat) :
    (branchTaken true false true true cc = true ↔ x.toNat < y.toNat) ∧
      (branchTaken true true true true cc = true ↔ x.toNat ≤ y.toNat) := by
  obtain ⟨hn, hz, hp⟩ := hsign
  have hzero := toInt_sub_eq_zero_iff x y
  rw [← BitVec.toNat_inj] at hzero
  simp only [branchTaken_iff, BranchCondition, hn, hz, hp, hc, true_and, false_and, false_or, true_imp_iff,
    Bool.false_eq_true]
  omega

theorem branchTaken_equality :
    (branchTaken false true false false cc = true ↔ x = y) ∧ (branchTaken true false true false cc = true ↔ x ≠ y) ∧
      branchTaken true true true false cc = true := by
  obtain ⟨hn, hz, hp⟩ := hsign
  simp only [branchTaken_iff, BranchCondition, hn, hz, hp, ← toInt_sub_eq_zero_iff, ne_eq, true_and, false_and,
    or_false, false_or, false_imp_iff, and_true, Bool.false_eq_true]
  omega

theorem branchTaken_signed (hlow : -32768 ≤ y.toInt - x.toInt) (hhigh : y.toInt - x.toInt ≤ 32767) :
    (branchTaken true false false false cc = true ↔ y.toInt < x.toInt) ∧
      (branchTaken false false true false cc = true ↔ x.toInt < y.toInt) ∧
      (branchTaken true true false false cc = true ↔ y.toInt ≤ x.toInt) ∧
      (branchTaken false true true false cc = true ↔ x.toInt ≤ y.toInt) := by
  obtain ⟨hn, hz, hp⟩ := hsign
  simp only [branchTaken_iff, BranchCondition, hn, hz, hp, toInt_sub_of_fits hlow hhigh, true_and, false_and, or_false,
    false_or, false_imp_iff, and_true, Bool.false_eq_true]
  omega

end

/-- Settles O47: SUB leaves the sign flags of the difference and the no-borrow carry, which Table B2's rows read. -/
theorem comparisonBranches : Obligations.ComparisonBranches := by
  intro s rt rx ry
  have hsign := signFlags_flagsOf (s.reg ry - s.reg rx) (sumCarry (subSum (s.reg rx) (s.reg ry)))
  obtain ⟨hlt, hle⟩ := branchTaken_unsigned hsign (sumCarry_subSum ..)
  obtain ⟨heq, hne, halways⟩ := branchTaken_equality hsign
  exact ⟨_, exec_subReg rt rx ry s, hlt, hle, heq, hne, halways, branchTaken_signed hsign⟩

end Sys2Proof.Proofs
end

section
/-! PROOFS. The whole effect of an instruction that writes a result and CC (spec/10_state.md R20, R23, R26, R27), and the
six bitwise instructions (spec/40_bitwise.md). -/

namespace Sys2Proof.Proofs

open Machine Claims

/-- The word of an instruction has the mask and match of its own row. -/
theorem encodes_row (i : Instr) : Encodes i i.row.mask i.row.pattern :=
  ⟨and_mask_of_accepts (accepts_encode i), decode_encode i⟩

theorem sext5_eq_signedWord (v : BitVec 5) : sext5 v = signedWord v := rfl

theorem resultEffect_writeResult (s : State) (dst : Reg) (res : Word) (carry : Bool) :
    ResultEffect s (writeResult s dst res carry) dst res := by
  have hspaces : KeepsSpaces s (writeResult s dst res carry) := ⟨fun _ => rfl, fun _ => rfl, rfl⟩
  have hsystem : KeepsSystem s (writeResult s dst res carry) := ⟨rfl, rfl, rfl, rfl, rfl, rfl, rfl⟩
  exact ⟨State.reg_setReg_self .., fun _ => State.reg_setReg_other s res, signFlags_flagsOf res carry, rfl, hspaces,
    hsystem, rfl⟩

/-- An instruction that runs as `bitwise` obeys the bitwise rule of `g`, where its word operation `f` is `g` bit by bit. -/
theorem bitwiseRule_of_exec {i : Instr} {op : CarryOp} {f : Word → Word → Word} {g : Bool → Bool → Bool} {dst : Reg}
    {a b : Word} {s : State} (hexec : exec i s = bitwise op f dst a b s)
    (hbits : ∀ k, (f a b).getLsbD k = g (a.getLsbD k) (b.getLsbD k)) : BitwiseRule i op g dst a b s :=
  ⟨_, f a b, hexec, hbits, resultEffect_writeResult .., rfl⟩

/-- Settles O7: each of the six is `bitwise` of its operation, which Lean's word operations are bit by bit. -/
theorem bitwiseResults : Obligations.BitwiseResults := by
  intro s dst sr1 sr2 imm5
  rw [← sext5_eq_signedWord]
  refine ⟨⟨encodes_row _, ?andReg⟩, ⟨encodes_row _, ?andImm⟩, ⟨encodes_row _, ?orrReg⟩, ⟨encodes_row _, ?orrImm⟩,
    ⟨encodes_row _, ?xorReg⟩, ⟨encodes_row _, ?xorImm⟩⟩
  case andReg => exact bitwiseRule_of_exec rfl fun _ => BitVec.getLsbD_and
  case andImm => exact bitwiseRule_of_exec rfl fun _ => BitVec.getLsbD_and
  case orrReg => exact bitwiseRule_of_exec rfl fun _ => BitVec.getLsbD_or
  case orrImm => exact bitwiseRule_of_exec rfl fun _ => BitVec.getLsbD_or
  case xorReg => exact bitwiseRule_of_exec rfl fun _ => BitVec.getLsbD_xor
  case xorImm => exact bitwiseRule_of_exec rfl fun _ => BitVec.getLsbD_xor

end Sys2Proof.Proofs
end

section
/-! PROOFS. The shifts (spec/41_shift.md): what a left and a right shift compute as numbers (R9, R124), the count of R125,
and the four shift instructions (R120 to R123). -/

namespace Sys2Proof.Proofs

open Machine Claims

/-! ### Shifts and counts as numbers -/

theorem shiftedLeft_shiftLeft (v : Word) (k : Nat) : ShiftedLeft v k (shiftLeft v k) := by
  rw [ShiftedLeft, shiftLeft, BitVec.toNat_shiftLeft, Nat.shiftLeft_eq]

/-- The logical shift divides the unsigned number, the arithmetic one floors the signed quotient. -/
theorem shiftedRight_shiftRight (a : Bool) (v : Word) (k : Nat) : ShiftedRight a v k (shiftRight a v k) := by
  constructor
  · rintro rfl
    exact (BitVec.toNat_ushiftRight v k).trans (Nat.shiftRight_eq_div_pow ..)
  · rintro rfl
    exact BitVec.toInt_sshiftRight.trans (Int.shiftRight_eq_div_pow ..)

theorem shiftCount_shiftAmount (v : Word) : ShiftCount v (shiftAmount v) :=
  ⟨fun hle => if_pos hle, fun hlt => if_neg (Nat.not_le.mpr hlt)⟩

theorem zext4_eq_ofNat (v : BitVec 4) : zext4 v = BitVec.ofNat 16 v.toNat := (BitVec.ofNat_toNat 16 v).symm

theorem zext4_toNat (v : BitVec 4) : (zext4 v).toNat = v.toNat := BitVec.toNat_setWidth_of_le (by decide)

/-! ### The instructions -/

/-- Settles O8: the count is the zero-extended field, and each form writes the shift by it. -/
theorem immediateShiftResults : Obligations.ImmediateShiftResults := by
  intro s dst sr1 a imm4
  rw [← zext4_eq_ofNat, ← zext4_toNat]
  refine ⟨⟨encodes_row _, ?shl⟩, ⟨encodes_row _, ?shr⟩⟩
  case shl => exact ⟨_, _, rfl, shiftedLeft_shiftLeft .., resultEffect_writeResult .., rfl⟩
  case shr => exact ⟨_, _, rfl, shiftedRight_shiftRight .., resultEffect_writeResult .., rfl⟩

/-- Settles O9: SHIFT_AMOUNT of the count register is the count, and each form writes the shift by it. -/
theorem registerShiftResults : Obligations.RegisterShiftResults := by
  intro s dst sr1 sr2 a
  have hcount := shiftCount_shiftAmount (s.reg sr2)
  refine ⟨?shl, ?shr⟩
  case shl => exact ⟨_, _, _, rfl, hcount, shiftedLeft_shiftLeft .., resultEffect_writeResult .., rfl⟩
  case shr => exact ⟨_, _, _, rfl, hcount, shiftedRight_shiftRight .., resultEffect_writeResult .., rfl⟩

end Sys2Proof.Proofs
end

section
/-! PROOFS. ADD and SUB (spec/42_arith.md): what the 17-bit sums are as numbers (R130, R132), and the four instructions
(R130 to R133). -/

namespace Sys2Proof.Proofs

open Machine Claims

/-! ### The sums as numbers -/

theorem addSum_toNat (a b : Word) : (addSum a b).toNat = a.toNat + b.toNat := by
  simp [addSum, sum17]
  omega

theorem sumWord_addSum_toNat (a b : Word) : (sumWord (addSum a b)).toNat = (a.toNat + b.toNat) % 65536 := by
  rw [sumWord, BitVec.toNat_setWidth, addSum_toNat]

/-- The carry of ADD is the carry-out of the unsigned sum (D5). -/
theorem sumCarry_addSum (a b : Word) : sumCarry (addSum a b) = true ↔ 65536 ≤ a.toNat + b.toNat := by
  rw [sumCarry, BitVec.getLsbD, Nat.testBit_eq_decide_div_mod_eq, addSum_toNat, decide_eq_true_iff]
  omega

theorem sumWord_subSum_toNat (a b : Word) :
    ((sumWord (subSum a b)).toNat : Int) = ((b.toNat : Int) - a.toNat) % 65536 := by
  rw [sumWord_subSum, BitVec.toNat_sub]
  omega

/-! ### The instructions -/

/-- An instruction that writes the sum of ADD back obeys ADD's rule. -/
theorem addRule_of_exec {i : Instr} {dst : Reg} {a b : Word} {s : State}
    (hexec : exec i s = writeSum dst (addSum a b) s) : AddRule i dst a b s :=
  ⟨_, _, hexec, sumWord_addSum_toNat a b, resultEffect_writeResult .., sumCarry_addSum a b⟩

/-- An instruction that writes the sum of SUB back obeys SUB's rule. -/
theorem subRule_of_exec {i : Instr} {dst : Reg} {a b : Word} {s : State}
    (hexec : exec i s = writeSum dst (subSum a b) s) : SubRule i dst a b s :=
  ⟨_, _, hexec, sumWord_subSum_toNat a b, resultEffect_writeResult .., sumCarry_subSum a b⟩

/-- Settles O10: both forms write ADD's sum back, with a register or the sign-extended field as second operand. -/
theorem addResults : Obligations.AddResults := by
  intro s dst sr1 sr2 imm5
  rw [← sext5_eq_signedWord]
  exact ⟨addRule_of_exec rfl, addRule_of_exec rfl⟩

/-- Settles O11: both forms write SUB's sum back, with a register or the sign-extended field as second operand. -/
theorem subResults : Obligations.SubResults := by
  intro s dst sr1 sr2 imm5
  rw [← sext5_eq_signedWord]
  exact ⟨subRule_of_exec rfl, subRule_of_exec rfl⟩

end Sys2Proof.Proofs
end

section
/-! PROOFS. LBI (spec/43_lbi.md): what its result is as a number (R140), the instruction, and the pair of R141. -/

namespace Sys2Proof.Proofs

open Machine Claims

/-! ### The result as a number -/

theorem zext8_eq_ofNat (v : BitVec 8) : zext8 v = BitVec.ofNat 16 v.toNat := (BitVec.ofNat_toNat 16 v).symm

theorem zext8_toNat (v : BitVec 8) : (zext8 v).toNat = v.toNat := BitVec.toNat_setWidth_of_le (by decide)

theorem lbiResult_true_toInt (old : Word) (v : BitVec 8) : (lbiResult true old v).toInt = v.toInt :=
  BitVec.toInt_signExtend_of_le (by decide)

/-- The shifted old byte and the zero-extended new one (D8) share no bit, so their union is their sum. -/
theorem lbiResult_false_toNat (old : Word) (v : BitVec 8) :
    (lbiResult false old v).toNat = old.toNat % 256 * 256 + v.toNat := by
  have hshifted : (old <<< 8).toNat = 2 ^ 8 * (old.toNat % 256) := by
    rw [BitVec.toNat_shiftLeft, Nat.shiftLeft_eq]
    omega
  calc (lbiResult false old v).toNat
      = (old <<< 8).toNat ||| (zext8 v).toNat := BitVec.toNat_or ..
    _ = 2 ^ 8 * (old.toNat % 256) ||| v.toNat := by rw [hshifted, zext8_toNat]
    _ = 2 ^ 8 * (old.toNat % 256) + v.toNat := (Nat.two_pow_add_eq_or_of_lt v.isLt _).symm
    _ = old.toNat % 256 * 256 + v.toNat := by omega

/-- A word that holds a signed byte has the byte's bits below. -/
theorem toNat_mod_256_of_toInt_eq {w : Word} {v : BitVec 8} (h : w.toInt = v.toInt) : w.toNat % 256 = v.toNat := by
  rw [BitVec.toInt_eq_toNat_cond, BitVec.toInt_eq_toNat_cond] at h
  omega

/-! ### The instruction and the pair -/

/-- Settles O12: LBI writes `lbiResult` back, whose number is that of its variant. -/
theorem loadByteResults : Obligations.LoadByteResults := by
  intro s dst sel imm8
  rw [← zext8_eq_ofNat]
  refine ⟨_, lbiResult sel (s.reg dst) imm8, rfl, ?signed, ?shifted, resultEffect_writeResult .., rfl⟩
  case signed =>
    rintro rfl
    exact lbiResult_true_toInt ..
  case shifted =>
    rintro rfl
    exact lbiResult_false_toNat ..

/-- Settles O13: the first LBI leaves the byte `high` below (`toNat_mod_256_of_toInt_eq`), and the second moves it up and
enters `low` under it, with the flags of the whole. -/
theorem loadBytePairBuildsAnyConstant : Obligations.LoadBytePairBuildsAnyConstant := by
  intro s dst high low
  obtain ⟨t, first, hfirst, hsigned, -, ⟨rfl, htregs, -, htpc, -⟩, -⟩ := loadByteResults s dst true high
  obtain ⟨u, second, hsecond, -, hshifted, ⟨rfl, huregs, hflags, hupc, -⟩, -⟩ := loadByteResults t dst false low
  refine ⟨t, u, hfirst, hsecond, ?value, hflags, ?frame, ?pc⟩
  case value => rw [hshifted rfl, toNat_mod_256_of_toInt_eq (hsigned rfl)]
  case frame => exact fun r hr => (huregs r hr).trans (htregs r hr)
  case pc => exact hupc.trans (htpc ▸ BitVec.add_assoc ..)

end Sys2Proof.Proofs
end

section
/-! PROOFS. LDR and STR (spec/44_load_store.md R150, R151): the refusal of a peripheral address under the default of
PERIPH (D14), what a word write of free memory leaves, and the two instructions. -/

namespace Sys2Proof.Proofs

open Machine Claims

/-! ### The refusal of the peripheral half (R55, R56) -/

theorem memRead_of_refuse {s : State} {a : Word} (hfree : isFreeMemory a = false) (hrefuse : s.periph = .refuse) :
    memRead s a = none := by
  simp [memRead, hfree, hrefuse]

theorem memWrite_of_refuse {s : State} {a : Word} (v : Word) (hfree : isFreeMemory a = false)
    (hrefuse : s.periph = .refuse) : memWrite s a v = none := by
  simp [memWrite, hfree, hrefuse]

section
variable {r sr1 : Reg} {ofst6 : BitVec 6} {s : State}
  (hfree : isFreeMemory (effectiveAddress s sr1 ofst6) = false) (hrefuse : s.periph = .refuse)
include hfree hrefuse

theorem execLdr_of_refuse :
    execLdr r sr1 ofst6 s = .refused (.peripheralAccess (effectiveAddress s sr1 ofst6)) := by
  rw [execLdr, memRead_of_refuse hfree hrefuse]

theorem execStr_of_refuse :
    execStr r sr1 ofst6 s = .refused (.peripheralAccess (effectiveAddress s sr1 ofst6)) := by
  rw [execStr, memWrite_of_refuse _ hfree hrefuse]

end

/-! ### The effects -/

/-- At an even address a word write reaches the two bytes at the address and above it. -/
theorem storesWord_freeWrite (s : State) {ea : Word} (v : Word) (heven : floorWord ea = ea) :
    StoresWord s (freeWrite s ea v) ea v := by
  refine ⟨freeRead_freeWrite_self s ea v, fun k hlow hhigh => ?_, freeWrite_progByte s ea v, rfl⟩
  rw [dataByte_freeWrite, heven, if_neg hlow, if_neg hhigh]

/-- What only changes registers, PC and free memory keeps the system state. -/
theorem keepsSystem_withRegsPcMem (s : State) (regs : Vector Word 8) (pc : Word) (mem : Memory) :
    KeepsSystem s { s with regs := regs, pc := pc, mem := mem } :=
  ⟨rfl, rfl, rfl, rfl, rfl, rfl, rfl⟩

theorem loadEffect_setReg_advance (s : State) (dst : Reg) (v : Word) : LoadEffect s (s.setReg dst v).advance dst v := by
  obtain ⟨hspaces, hsystem⟩ := keeps_withRegsPcPeriph s (s.setReg dst v).regs (s.pc + 2#16) s.periph
  exact ⟨State.reg_setReg_self .., fun _ => State.reg_setReg_other s v, rfl, rfl, hspaces, hsystem, rfl⟩

/-- Settles O14: below 0x8000 LDR is `execLdr_of_free`, whose state `loadEffect_setReg_advance` describes. -/
theorem loadWordResults : Obligations.LoadWordResults := by
  refine fun s dst sr1 ofst6 => ⟨encodes_row _, fun hlow => ?free, fun hhigh hrefuse => ?refused⟩
  case free => exact ⟨_, execLdr_of_free ((isFreeMemory_iff _).mpr hlow), loadEffect_setReg_advance ..⟩
  case refused => exact execLdr_of_refuse ((isFreeMemory_eq_false_iff _).mpr hhigh) hrefuse

/-- Settles O15: below 0x8000 STR is `execStr_of_free`, a word write at an address that is even, and PC advanced. -/
theorem storeWordResults : Obligations.StoreWordResults := by
  refine fun s src sr1 ofst6 => ⟨encodes_row _, fun hlow => ?free, fun hhigh hrefuse => ?refused⟩
  case free =>
    have hstores := storesWord_freeWrite s (s.reg src) (floorWord_effectiveAddress s sr1 ofst6)
    exact ⟨_, execStr_of_free ((isFreeMemory_iff _).mpr hlow), hstores, fun _ => rfl, rfl, rfl,
      keepsSystem_withRegsPcMem s _ _ _, rfl⟩
  case refused => exact execStr_of_refuse ((isFreeMemory_eq_false_iff _).mpr hhigh) hrefuse

end Sys2Proof.Proofs
end

section
/-! PROOFS. The transfers of control (spec/45_control.md): the branch and jump targets as numbers (R160, R162, R165), the
three instructions and the return from interrupt (R163), and the pairing of call and return (R164). -/

namespace Sys2Proof.Proofs

open Machine Claims

/-! ### The targets as numbers -/

theorem sext5_toInt (v : BitVec 5) : (sext5 v).toInt = v.toInt := BitVec.toInt_signExtend_of_le (by decide)

theorem sext8_toInt (v : BitVec 8) : (sext8 v).toInt = v.toInt := BitVec.toInt_signExtend_of_le (by decide)

theorem nextPc_toNat (s : State) : (s.nextPc.toNat : Int) = (s.pc.toNat + 2) % 65536 := by
  rw [State.nextPc, BitVec.toNat_add]
  rfl

theorem branchTarget_toNat (s : State) (imm8 : BitVec 8) :
    ((branchTarget s imm8).toNat : Int) = (s.pc.toNat + 2 + 2 * imm8.toInt) % 65536 := by
  rw [branchTarget, toNat_add_wordsToBytes, sext8_toInt, nextPc_toNat, Int.emod_add_emod]

theorem jumpTarget_toNat (s : State) (sr1 : Reg) (imm5 : BitVec 5) :
    ((jumpTarget s sr1 imm5).toNat : Int) = ((s.reg sr1).toNat + 2 * imm5.toInt) % 65536 / 2 * 2 := by
  rw [jumpTarget, floorWord_toNat, ← sext5_toInt, ← toNat_add_wordsToBytes]
  rfl

theorem floorWord_of_even {a : Word} (heven : a.toNat % 2 = 0) : floorWord a = a := by
  rw [← BitVec.toNat_inj, floorWord_toNat]
  exact Nat.div_mul_cancel (Nat.dvd_of_mod_eq_zero heven)

/-- With a zero offset only bit 0 of the register is lost. -/
theorem jumpTarget_zero (s : State) (sr1 : Reg) : jumpTarget s sr1 0#5 = floorWord (s.reg sr1) :=
  congrArg floorWord (BitVec.add_zero _)

/-! ### The instructions -/

/-- Settles O18: `execBrc_eq` has the one new PC, the target if `branchTaken_iff` holds and else the next instruction. -/
theorem branchResults : Obligations.BranchResults := by
  refine fun s bn bz bp bc imm8 => ⟨_, execBrc_eq .., fun htaken => ?taken, fun hnot => ?untaken⟩
  case taken =>
    rw [if_pos ((branchTaken_iff ..).mpr htaken)]
    exact branchTarget_toNat s imm8
  case untaken =>
    rw [if_neg (mt (branchTaken_iff ..).mp hnot)]
    exact nextPc_toNat s

/-- Settles O19: JPR sets PC to its target, whose number is `jumpTarget_toNat`. -/
theorem jumpResults : Obligations.JumpResults := fun s sr1 imm5 =>
  ⟨encodes_row _, jumpTarget s sr1 imm5, rfl, jumpTarget_toNat s sr1 imm5⟩

/-- Settles O20: the return is `returnFromInterrupt`, which takes no operand. -/
theorem interruptReturnResults : Obligations.InterruptReturnResults := fun _ _ _ => rfl

/-- Settles O21: JLR is the link written to DST and then the jump, whose target is of the state before the write. -/
theorem jumpAndLinkResults : Obligations.JumpAndLinkResults := by
  intro s dst sr1 imm5
  obtain ⟨hspaces, hsystem⟩ :=
    keeps_withRegsPcPeriph s (s.setReg dst s.nextPc).regs (jumpTarget s sr1 imm5) s.periph
  exact ⟨_, rfl, State.reg_setReg_self .., fun _ => State.reg_setReg_other s _, jumpTarget_toNat s sr1 imm5, rfl,
    hspaces, hsystem, rfl⟩

/-- Settles O50: the link of an even PC is even, so the return's target is the link itself. -/
theorem callAndReturn : Obligations.CallAndReturn := by
  intro s u k sr1 imm5 heven
  obtain ⟨t, hcall, hlink, -⟩ := jumpAndLinkResults s k sr1 imm5
  refine ⟨t, hcall, fun hkept => ⟨_, rfl, ?_⟩⟩
  have hreturn : jumpTarget u k 0#5 = s.pc + 2#16 :=
    calc jumpTarget u k 0#5
        = floorWord (u.reg k) := jumpTarget_zero u k
      _ = floorWord (s.pc + 2#16) := by rw [hkept, hlink]
      _ = s.pc + 2#16 := floorWord_of_even ((nextPc_mod_two s).trans heven)
  rw [hreturn]
  rfl

end Sys2Proof.Proofs
end

section
/-! PROOFS. SWP (spec/46_swp.md R170): a swap in free memory and its refusal in the peripheral half, what it leaves, and
two swaps of one word. -/

namespace Sys2Proof.Proofs

open Machine Claims

/-! ### One swap -/

theorem execSwp_of_free {dst sr1 : Reg} {ofst6 : BitVec 6} {s : State}
    (hfree : isFreeMemory (effectiveAddress s sr1 ofst6) = true) :
    execSwp dst sr1 ofst6 s = .next
      ((freeWrite s (effectiveAddress s sr1 ofst6) (s.reg dst)).setReg dst
        (freeRead s (effectiveAddress s sr1 ofst6))).advance :=
  execSwp_eq_next_iff.mpr ⟨_, _, _, memRead_of_free _ hfree, memWrite_of_free _ _ hfree, rfl⟩

/-- The read comes first, so the read is what PERIPH refuses. -/
theorem execSwp_of_refuse {dst sr1 : Reg} {ofst6 : BitVec 6} {s : State}
    (hfree : isFreeMemory (effectiveAddress s sr1 ofst6) = false) (hrefuse : s.periph = .refuse) :
    execSwp dst sr1 ofst6 s = .refused (.peripheralAccess (effectiveAddress s sr1 ofst6)) := by
  rw [execSwp, memRead_of_refuse hfree hrefuse]

/-- Settles O16: below 0x8000 SWP is `execSwp_of_free`, STR's word write with DST then set to the word read first. -/
theorem swapResults : Obligations.SwapResults := by
  refine fun s dst sr1 ofst6 => ⟨fun hlow => ?free, fun hhigh hrefuse => ?refused⟩
  case free =>
    have hstores := storesWord_freeWrite s (s.reg dst) (floorWord_effectiveAddress s sr1 ofst6)
    exact ⟨_, execSwp_of_free ((isFreeMemory_iff _).mpr hlow), hstores, State.reg_setReg_self ..,
      fun _ => State.reg_setReg_other _ _, rfl, rfl, keepsSystem_withRegsPcMem s _ _ _, rfl⟩
  case refused => exact execSwp_of_refuse ((isFreeMemory_eq_false_iff _).mpr hhigh) hrefuse

/-! ### Two swaps -/

/-- The address is of the base register alone. -/
theorem effectiveAddress_congr {s t : State} {sr1 : Reg} (hbase : t.reg sr1 = s.reg sr1) (ofst6 : BitVec 6) :
    effectiveAddress t sr1 ofst6 = effectiveAddress s sr1 ofst6 := by
  rw [effectiveAddress, effectiveAddress, dataAddress, dataAddress, hbase]

theorem joinBytes_inj {lo hi lo' hi' : Byte} : joinBytes lo hi = joinBytes lo' hi' ↔ lo = lo' ∧ hi = hi' := by
  simp only [joinBytes, ← BitVec.toNat_inj, toNat_append_eq]
  omega

/-- The word read tells both of its bytes, so a word that reads as before has its bytes as before. -/
theorem freeRead_eq_iff {s t : State} {a : Word} (heven : floorWord a = a) :
    freeRead t a = freeRead s a ↔
      dataByte t a.toNat = dataByte s a.toNat ∧ dataByte t (a.toNat + 1) = dataByte s (a.toNat + 1) := by
  rw [freeRead, freeRead, heven, joinBytes_inj]

/-- Settles O49: by `swapResults` twice, at the one address, since the first swap keeps the base. -/
theorem swapTwiceRestores : Obligations.SwapTwiceRestores := by
  intro s dst sr1 ofst6 hne hlow
  obtain ⟨hswap, -⟩ := swapResults s dst sr1 ofst6
  obtain ⟨t, hfirst, ⟨htword, htbytes, -⟩, htdst, htregs, -⟩ := hswap hlow
  have hsame : effectiveAddress t sr1 ofst6 = effectiveAddress s sr1 ofst6 :=
    effectiveAddress_congr (htregs sr1 hne.symm) ofst6
  obtain ⟨hswap, -⟩ := swapResults t dst sr1 ofst6
  rw [hsame] at hswap
  obtain ⟨u, hsecond, ⟨huword, hubytes, -⟩, hudst, huregs, -⟩ := hswap hlow
  obtain ⟨hlowByte, hhighByte⟩ :=
    (freeRead_eq_iff (floorWord_effectiveAddress s sr1 ofst6)).mp (huword.trans htdst)
  refine ⟨t, u, hfirst, hsecond, fun r => ?regs, fun k => ?bytes⟩
  case regs =>
    by_cases hr : r = dst
    · rw [hr, hudst, htword]
    · rw [huregs r hr, htregs r hr]
  case bytes =>
    by_cases hk : k = (effectiveAddress s sr1 ofst6).toNat
    · rw [hk, hlowByte]
    by_cases hk' : k = (effectiveAddress s sr1 ofst6).toNat + 1
    · rw [hk', hhighByte]
    · rw [hubytes k hk hk', htbytes k hk hk']

end Sys2Proof.Proofs
end

section
/-! PROOFS. NOP and HLT (spec/47_nop_hlt.md), the step at an instruction boundary and a routine from entry to return
(spec/60_exceptions.md), and the words written out in spec/95_test_vectors.md. -/

namespace Sys2Proof.Proofs

open Machine Claims

/-! ### When a request can be accepted (R204) -/

theorem acceptsInterrupt_iff (s : State) :
    acceptsInterrupt s = true ↔ s.hl = false ∧ (s.il = false ∨ s.params.intNesting = true) := by
  simp [acceptsInterrupt]

/-- Inside a routine, without nesting, no request is accepted. -/
theorem acceptsInterrupt_inside_routine {s : State} (hil : s.il = true) (hnesting : s.params.intNesting = false) :
    acceptsInterrupt s = false := by
  simp [acceptsInterrupt, hil, hnesting]

/-- No request is accepted where none is presented, nor inside a routine without nesting. -/
theorem not_accepted {s : State} (h : irqHead s.irq = false ∨ (s.il = true ∧ s.params.intNesting = false)) :
    (irqNow s && acceptsInterrupt s) = false := by
  rw [Bool.and_eq_false_iff]
  exact h.imp id fun ⟨hil, hnesting⟩ => acceptsInterrupt_inside_routine hil hnesting

/-! ### A routine, from entry to return (R208, R209) -/

theorem isReturn_iff (i : Instr) : isReturn i = true ↔ ∃ sr1 imm5, i = .jprReturn sr1 imm5 := by
  cases i <;> simp [isReturn]

/-- Settles O39: the step runs the fetched instruction, which leaves the shadows (`exec_pcsh`, `exec_ccsh`) and, unless
it is the return, IL (`exec_il`). -/
theorem shadowsStableInsideRoutine : Obligations.ShadowsStableInsideRoutine := by
  intro s t hil hnesting h
  obtain ⟨i, hfetch, hexec⟩ := step_of_not_accepted h (not_accepted (.inr ⟨hil, hnesting⟩))
  refine ⟨exec_pcsh (s := passBoundary s) hexec, exec_ccsh (s := passBoundary s) hexec, ?_⟩
  cases hreturn : isReturn i with
  | false =>
    left
    rw [exec_il hexec, hreturn, passBoundary_il, hil]
    rfl
  | true =>
    obtain ⟨sr1, imm5, rfl⟩ := (isReturn_iff i).mp hreturn
    have hcc : t.cc = s.ccsh := exec_cc_of_isReturn (s := passBoundary s) hexec hreturn
    exact .inr ⟨sr1, imm5, hfetch, newPc_exec hexec, hcc⟩

/-- Settles O38: the return copies the shadows, which are the PC and CC of `s`, and with IL clear only HL stands in the
way of a request. -/
theorem returnRestoresWhatEntrySaved : Obligations.ReturnRestoresWhatEntrySaved := by
  intro s r sr1 imm5 hpcsh hccsh
  refine ⟨returnFromInterrupt r, rfl, ?_, ?_⟩
  · rw [returnFromInterrupt, hpcsh, hccsh]
    rfl
  · simp [acceptsInterrupt]

/-! ### The step at a boundary (R217) -/

/-- Settles O36: `step_eq_exec`, where no request is accepted and the fetch gives `i`. -/
theorem stepRunsDecodedInstruction : Obligations.StepRunsDecodedInstruction :=
  fun _ _ hhl hrequest hdecode => step_eq_exec hhl (not_accepted hrequest) hdecode

/-- Settles O37: `step_eq_entry`, and entry is one equation. -/
theorem interruptAccepted : Obligations.InterruptAccepted :=
  fun s hhl hnow hfree => step_eq_entry hhl hnow ((acceptsInterrupt_iff s).mpr ⟨hhl, hfree⟩)

/-! ### NOP and HLT -/

/-- The words below 0x1000 are those of opcode 0000. -/
theorem decodeFields_of_lt {w : Word} (hlow : w.toNat < 0x1000) : decodeFields w = .nop := by
  have hop : (opcodeField w).toNat = 0 := by
    rw [opcodeField_toNat]
    exact Nat.div_eq_of_lt hlow
  simp [decodeFields, hop]

/-- Settles O22: a well-formed word of opcode 0000 is the encoding of what its fields say (`encode_decodeFields`), which
is NOP, so the others are reserved. -/
theorem nopResults : Obligations.NopResults := by
  refine ⟨rfl, rfl, fun w hlow hne => decode_of_not_wellFormed (Bool.eq_false_iff.mpr fun hw => hne ?_), fun _ => rfl⟩
  calc w
    _ = literalBitsCorrected w := ((wellFormed_iff w).mp hw).symm
    _ = encode (decodeFields w) := (encode_decodeFields w).symm
    _ = 0x0000#16 := by rw [decodeFields_of_lt hlow]; rfl

/-- Settles O23: HLT is the one update of HL, and a machine with HL set has no step. -/
theorem haltResults : Obligations.HaltResults := fun _ => ⟨_, rfl, rfl, step_of_halted rfl⟩

/-- Settles O40: a loaded word and another input leave HL, so `step_of_halted` answers for each; a launch has HL
clear. -/
theorem haltedMachineHasNoStep : Obligations.HaltedMachineHasNoStep := by
  refine fun s hhl => ⟨fun _ _ => step_of_halted hhl, fun t h => ?_, fun _ => rfl⟩
  rw [step_of_halted hhl] at h
  cases h

/-! ### Words of the spec -/

/-- Settles O5 by running the decoder on the fifteen words; the last is JLR's opcode with its selector bit set. -/
theorem specWordsDecode : Obligations.SpecWordsDecode := by
  unfold Obligations.SpecWordsDecode
  decide

end Sys2Proof.Proofs
end
